-- ==== Sys2Proof/Word.lean ====
section
/-! DEFINITION. The machine's word types (spec/00_scope.md R5, R6, R7). -/

namespace Sys2Proof

/-- A register, a memory byte, an ALU operand, a memory address: 8 bits, unsigned (R5 `XLEN`, R7). -/
abbrev Byte := BitVec 8

/-- The program counter: 9 bits (R5 `PC_WIDTH`, R22; log entry 16). -/
abbrev PcWord := BitVec 9

/-- One of the eight interrupt lines (R5 `NIRQ`). -/
abbrev Line := Fin 8

end Sys2Proof
end

