-- ==== Sys2Proof/Machine/Flags.lean ====
section
/-! DEFINITION. The flags register's bits and the one flag computation, CMP's (spec/10_state.md R24,
spec/42_alu.md R122, R124). -/

namespace Sys2Proof.Machine

/-- E, bit 0 (R24; log entry 11). -/
def flagE (fl : Byte) : Bool := fl.getLsbD 0

/-- G, bit 1 (R24). -/
def flagG (fl : Byte) : Bool := fl.getLsbD 1

/-- L, bit 2 (R24). -/
def flagL (fl : Byte) : Bool := fl.getLsbD 2

/-- `{0b00000, L, G, E}` (R122). -/
def packFlags (e g l : Bool) : Byte :=
  (BitVec.ofBool l ++ BitVec.ofBool g ++ BitVec.ofBool e).setWidth 8

/-- The `FL` CMP writes: unsigned order of the operands, all 8 bits (R122). -/
def compareFlags (a b : Byte) : Byte :=
  packFlags (decide (a.toNat = b.toNat)) (decide (a.toNat > b.toNat)) (decide (a.toNat < b.toNat))

end Sys2Proof.Machine
end

