-- ==== Sys2Proof/Machine/Memory.lean ====
section
/-! DEFINITION. The one memory: 256 bytes in one flat space (spec/20_memory.md R40, R41), held as a list
of (address, byte) pairs in one canonical form: addresses strictly rising and below 256, no byte equal
to what an unlisted address reads as. -/

namespace Sys2Proof.Machine

/-- The listed bytes of memory. -/
abbrev Memory := List Host.Cell

/-- What an unlisted address reads as. DESIGN CHOICE (log entry 5): the spec leaves `INITIAL_MEMORY`
open (D23); its own vectors start from zeros. -/
def unwrittenByte : Byte := 0x00

/-- Addresses strictly rising, each in 0x00 to 0xFF, no entry equal to the unlisted byte. -/
abbrev Memory.wf (m : Memory) : Prop :=
  m.Pairwise (fun p q => p.1 < q.1) ∧ ∀ c ∈ m, c.1 < 256 ∧ c.2 ≠ unwrittenByte

/-- The byte listed at a key, or what an unlisted address reads as. -/
def Memory.lookup : Memory → Nat → Byte
  | [], _ => unwrittenByte
  | (k, v) :: rest, a => if k = a then v else Memory.lookup rest a

/-- Put an entry in front of the first larger key. -/
def Memory.insertCell (a : Nat) (v : Byte) : Memory → Memory
  | [] => [(a, v)]
  | (k, w) :: rest => if a < k then (a, v) :: (k, w) :: rest else (k, w) :: Memory.insertCell a v rest

/-- `MemRead(addr, 1)`: total, without side effect (R41). -/
def Memory.read (m : Memory) (a : Byte) : Byte := m.lookup a.toNat

/-- `MemWrite(addr, 1, v)`: replaces that byte and no other (R41). -/
def Memory.write (m : Memory) (a v : Byte) : Memory :=
  let others := m.filter (fun c => c.1 ≠ a.toNat)
  if v = unwrittenByte then others else Memory.insertCell a.toNat v others

/-- Write bytes at ascending addresses from `a`; an address above 0xFF does not exist and is left out. -/
def Memory.writeBytes (m : Memory) (a : Nat) : List Byte → Memory
  | [] => m
  | v :: rest => if a ≤ 0xFF then (m.write (BitVec.ofNat 8 a) v).writeBytes (a + 1) rest else m

end Sys2Proof.Machine
end

