-- ==== Sys2Proof/Config.lean ====
section
/-! DEFINITION. The parameters of one machine that the spec leaves open (spec/00_scope.md R5):
`OPCODE_MAP`, `IM_RESET`, `STACK_FLOOR`. They are constants of a machine, not state (R32). The default
values stand in Decode.lean and Machine/Params.lean. The spec needs no free value. -/

namespace Sys2Proof

/-- The thirty mnemonics in the order of spec/30_encoding.md R65. -/
inductive Mnemonic where
  | ldi | ld | st | prn | pra
  | add | sub | mul | div | mod | and | or | xor | inc | dec | not | cmp
  | push | pop | call | ret
  | jmp | jeq | jne | jgt | jlt
  | int | iret | nop | hlt
deriving DecidableEq, Repr

/-- `OPCODE_MAP`: the opcode byte of each mnemonic (R5, R65). PRESUMED values are only in the default
map, `OpcodeMap.standard`; this type holds any map. -/
structure OpcodeMap where
  ldi : Byte
  ld : Byte
  st : Byte
  prn : Byte
  pra : Byte
  add : Byte
  sub : Byte
  mul : Byte
  div : Byte
  mod : Byte
  and : Byte
  or : Byte
  xor : Byte
  inc : Byte
  dec : Byte
  not : Byte
  cmp : Byte
  push : Byte
  pop : Byte
  call : Byte
  ret : Byte
  jmp : Byte
  jeq : Byte
  jne : Byte
  jgt : Byte
  jlt : Byte
  int : Byte
  iret : Byte
  nop : Byte
  hlt : Byte
deriving DecidableEq, Repr

/-- The open parameters of one machine (R5). -/
structure Config where
  /-- `OPCODE_MAP` (D1). -/
  opcodeMap : OpcodeMap
  /-- `IM_RESET`: the reset value of the interrupt mask (D8). -/
  imReset : Byte
  /-- `STACK_FLOOR`: the lowest address a push may write (D15); legal range 0x00 to 0xF3. -/
  stackFloor : Byte
deriving DecidableEq, Repr

end Sys2Proof
end

