-- ==== Sys2Proof/Syntax.lean ====
section
/-! DEFINITION. The instructions: one constructor per row of spec/opcode_table.json, in its order
(spec/30_encoding.md R62, R65). An operand is the byte as fetched: whether it selects a register is
checked when the instruction executes (spec/41_data_movement.md R100; log entry 9). -/

namespace Sys2Proof

/-- `a` is `byte1` (`regA`), `b` is `byte2` (`regB`), `imm` is `byte2` of LDI (R62, R63, R64). -/
inductive Instr where
  | ldi (a imm : Byte)
  | ld (a b : Byte)
  | st (a b : Byte)
  | prn (a : Byte)
  | pra (a : Byte)
  | add (a b : Byte)
  | sub (a b : Byte)
  | mul (a b : Byte)
  | div (a b : Byte)
  | mod (a b : Byte)
  | and (a b : Byte)
  | or (a b : Byte)
  | xor (a b : Byte)
  | inc (a : Byte)
  | dec (a : Byte)
  | not (a : Byte)
  | cmp (a b : Byte)
  | push (a : Byte)
  | pop (a : Byte)
  | call (a : Byte)
  | ret
  | jmp (a : Byte)
  | jeq (a : Byte)
  | jne (a : Byte)
  | jgt (a : Byte)
  | jlt (a : Byte)
  | int (a : Byte)
  | iret
  | nop
  | hlt
deriving DecidableEq, Repr

/-- The table row an instruction belongs to. -/
def Instr.mnemonic : Instr → Mnemonic
  | .ldi _ _ => .ldi
  | .ld _ _ => .ld
  | .st _ _ => .st
  | .prn _ => .prn
  | .pra _ => .pra
  | .add _ _ => .add
  | .sub _ _ => .sub
  | .mul _ _ => .mul
  | .div _ _ => .div
  | .mod _ _ => .mod
  | .and _ _ => .and
  | .or _ _ => .or
  | .xor _ _ => .xor
  | .inc _ => .inc
  | .dec _ => .dec
  | .not _ => .not
  | .cmp _ _ => .cmp
  | .push _ => .push
  | .pop _ => .pop
  | .call _ => .call
  | .ret => .ret
  | .jmp _ => .jmp
  | .jeq _ => .jeq
  | .jne _ => .jne
  | .jgt _ => .jgt
  | .jlt _ => .jlt
  | .int _ => .int
  | .iret => .iret
  | .nop => .nop
  | .hlt => .hlt

/-- The operand bytes in the order they follow the opcode byte (R60, R62). -/
def Instr.operands : Instr → List Byte
  | .ldi a imm => [a, imm]
  | .ld a b | .st a b | .add a b | .sub a b | .mul a b | .div a b | .mod a b
  | .and a b | .or a b | .xor a b | .cmp a b => [a, b]
  | .prn a | .pra a | .inc a | .dec a | .not a | .push a | .pop a | .call a
  | .jmp a | .jeq a | .jne a | .jgt a | .jlt a | .int a => [a]
  | .ret | .iret | .nop | .hlt => []

/-- The operand bytes that must select a register: all of them but LDI's immediate (R63, R64). -/
def Instr.registerOperands : Instr → List Byte
  | .ldi a _ => [a]
  | .ld a b | .st a b | .add a b | .sub a b | .mul a b | .div a b | .mod a b
  | .and a b | .or a b | .xor a b | .cmp a b => [a, b]
  | .prn a | .pra a | .inc a | .dec a | .not a | .push a | .pop a | .call a
  | .jmp a | .jeq a | .jne a | .jgt a | .jlt a | .int a => [a]
  | .ret | .iret | .nop | .hlt => []

end Sys2Proof
end

