-- ==== Sys2Proof/WellFormed.lean ====
section
/-! DEFINITION. Well-formed instructions: every register operand selects one of R0 to R7
(spec/30_encoding.md R63). An ill-formed instruction can be fetched and decoded; executing it raises
InvalidOperand (spec/41_data_movement.md R100). -/

namespace Sys2Proof

/-- "its value 0 to 7 selects R0 to R7" (R63). -/
def registerByteOk (v : Byte) : Bool := decide (v.toNat ≤ 7)

/-- Each register operand byte is 0 to 7; LDI's immediate is unrestricted (R63, R64). -/
def Instr.wf (i : Instr) : Bool := i.registerOperands.all registerByteOk

end Sys2Proof
end

