-- ==== Sys2Proof/Decode.lean ====
section
/-! DEFINITION. The decoder and, after it, the encoder (spec/30_encoding.md). Both are written over an
arbitrary `OPCODE_MAP`; `OpcodeMap.standard` is the default table of R65. -/

namespace Sys2Proof

/-- The twelve operations of the ALU (spec/42_alu.md R110). -/
inductive AluOp where
  | add | sub | mul | div | mod | inc | dec | cmp | and | or | xor | not
deriving DecidableEq, Repr

/-- Column "Sets PC" of R65. -/
inductive SetsPc where
  | no
  | whenTaken
  | yes
deriving DecidableEq, Repr

/-- The decoder's output: the "immutable descriptor" of R68. -/
structure Descriptor where
  opcode : Byte
  mnemonic : Mnemonic
  operandCount : Nat
  setsPc : SetsPc
  aluTag : Option AluOp
deriving DecidableEq, Repr

/-- Why a byte sequence is no instruction. -/
inductive DecodeError where
  /-- There is no opcode byte to read. -/
  | noOpcode
  /-- The opcode byte is not one of the thirty (R67). -/
  | unknownInstruction (op : Byte)
  /-- The opcode is known and fewer than its `count` operand bytes follow (R61). -/
  | truncated (count : Nat)
deriving DecidableEq, Repr

/-- The thirty rows in the order of R65. -/
def Mnemonic.all : List Mnemonic :=
  [.ldi, .ld, .st, .prn, .pra, .add, .sub, .mul, .div, .mod, .and, .or, .xor, .inc, .dec, .not, .cmp]
    ++ [.push, .pop, .call, .ret, .jmp, .jeq, .jne, .jgt, .jlt, .int, .iret, .nop, .hlt]

/-- The opcode byte of a mnemonic under a map (R65). -/
def OpcodeMap.byteOf (m : OpcodeMap) : Mnemonic → Byte
  | .ldi => m.ldi
  | .ld => m.ld
  | .st => m.st
  | .prn => m.prn
  | .pra => m.pra
  | .add => m.add
  | .sub => m.sub
  | .mul => m.mul
  | .div => m.div
  | .mod => m.mod
  | .and => m.and
  | .or => m.or
  | .xor => m.xor
  | .inc => m.inc
  | .dec => m.dec
  | .not => m.not
  | .cmp => m.cmp
  | .push => m.push
  | .pop => m.pop
  | .call => m.call
  | .ret => m.ret
  | .jmp => m.jmp
  | .jeq => m.jeq
  | .jne => m.jne
  | .jgt => m.jgt
  | .jlt => m.jlt
  | .int => m.int
  | .iret => m.iret
  | .nop => m.nop
  | .hlt => m.hlt

/-- The default `OPCODE_MAP` of R65. PRESUMED: the numbers are the LS-8 family's, which the spec takes
"from general knowledge" (D1, G1; log entry 1). -/
def OpcodeMap.standard : OpcodeMap where
  ldi := 0b10011001
  ld := 0b10011000
  st := 0b10011010
  prn := 0b01000011
  pra := 0b01000010
  add := 0b10101000
  sub := 0b10101001
  mul := 0b10101010
  div := 0b10101011
  mod := 0b10101100
  and := 0b10110011
  or := 0b10110001
  xor := 0b10110010
  inc := 0b01111000
  dec := 0b01111001
  not := 0b01110000
  cmp := 0b10100000
  push := 0b01001101
  pop := 0b01001100
  call := 0b01001000
  ret := 0b00001001
  jmp := 0b01010000
  jeq := 0b01010001
  jne := 0b01010010
  jgt := 0b01010100
  jlt := 0b01010011
  int := 0b01001010
  iret := 0b00001011
  nop := 0b00000000
  hlt := 0b00000001

/-- `operandCount = opcode[7:6]` (R61). -/
def operandCount (op : Byte) : Nat := (op.extractLsb' 6 2).toNat

/-- Column "Count" of R65. -/
def Mnemonic.count : Mnemonic → Nat
  | .ldi | .ld | .st | .add | .sub | .mul | .div | .mod | .and | .or | .xor | .cmp => 2
  | .prn | .pra | .inc | .dec | .not | .push | .pop | .call | .jmp | .jeq | .jne | .jgt | .jlt | .int => 1
  | .ret | .iret | .nop | .hlt => 0

/-- Column "Sets PC" of R65; INT does not set it (R68, C5). -/
def Mnemonic.setsPc : Mnemonic → SetsPc
  | .call | .ret | .jmp | .iret => .yes
  | .jeq | .jne | .jgt | .jlt => .whenTaken
  | .ldi | .ld | .st | .prn | .pra | .add | .sub | .mul | .div | .mod | .and | .or | .xor | .inc | .dec
  | .not | .cmp | .push | .pop | .int | .nop | .hlt => .no

/-- Column "ALU tag" of R65. -/
def Mnemonic.aluTag : Mnemonic → Option AluOp
  | .add => some .add
  | .sub => some .sub
  | .mul => some .mul
  | .div => some .div
  | .mod => some .mod
  | .and => some .and
  | .or => some .or
  | .xor => some .xor
  | .inc => some .inc
  | .dec => some .dec
  | .not => some .not
  | .cmp => some .cmp
  | .ldi | .ld | .st | .prn | .pra | .push | .pop | .call | .ret | .jmp | .jeq | .jne | .jgt | .jlt
  | .int | .iret | .nop | .hlt => none

/-- The three invariants every `OPCODE_MAP` must satisfy (R66). -/
abbrev OpcodeMap.Legal (m : OpcodeMap) : Prop :=
  (Mnemonic.all.map m.byteOf).Nodup
    ∧ (∀ n ∈ Mnemonic.all, operandCount (m.byteOf n) = n.count)
    ∧ (∀ n ∈ Mnemonic.all, operandCount (m.byteOf n) ≠ 3)

/-- The table lookup on the whole byte (R61, R67, R68). -/
def decodeOpcode (m : OpcodeMap) (op : Byte) : Except DecodeError Descriptor :=
  match Mnemonic.all.find? (fun n => m.byteOf n == op) with
  | none => .error (.unknownInstruction op)
  | some n => .ok ⟨op, n, operandCount op, n.setsPc, n.aluTag⟩

/-- A mnemonic with its fetched operand bytes; an operand the format lacks is ignored (R62). -/
def assemble (n : Mnemonic) (a b : Byte) : Instr :=
  match n with
  | .ldi => .ldi a b
  | .ld => .ld a b
  | .st => .st a b
  | .prn => .prn a
  | .pra => .pra a
  | .add => .add a b
  | .sub => .sub a b
  | .mul => .mul a b
  | .div => .div a b
  | .mod => .mod a b
  | .and => .and a b
  | .or => .or a b
  | .xor => .xor a b
  | .inc => .inc a
  | .dec => .dec a
  | .not => .not a
  | .cmp => .cmp a b
  | .push => .push a
  | .pop => .pop a
  | .call => .call a
  | .ret => .ret
  | .jmp => .jmp a
  | .jeq => .jeq a
  | .jne => .jne a
  | .jgt => .jgt a
  | .jlt => .jlt a
  | .int => .int a
  | .iret => .iret
  | .nop => .nop
  | .hlt => .hlt

/-- Decode the instruction at the head of a byte sequence and give the bytes after it. The opcode is
decided before any operand byte is looked at (R67, R84). -/
def decode (m : OpcodeMap) : List Byte → Except DecodeError (Instr × List Byte)
  | [] => .error .noOpcode
  | op :: rest =>
    match decodeOpcode m op with
    | .error e => .error e
    | .ok d =>
      if rest.length < d.operandCount then .error (.truncated d.operandCount)
      else .ok (assemble d.mnemonic (rest.getD 0 0) (rest.getD 1 0), rest.drop d.operandCount)

/-- Byte `k` of an instruction's bits numbered as spec/opcode_table.json numbers them (bit 0 is bit 0 of
the opcode byte), the bits from `nbits` up being 0. -/
def tableByte (nbits w k : Nat) : Byte := BitVec.ofNat 8 (w % 2 ^ nbits / 256 ^ k)

/-- The three bytes, lowest address first, of such an instruction; no instruction is longer (R60). -/
def tableBytes (nbits w : Nat) : List Byte := [tableByte nbits w 0, tableByte nbits w 1, tableByte nbits w 2]

/-- The instruction the decoder reads, under the default map, from an instruction's bits. -/
def decodeTableWord (nbits w : Nat) : Option Instr :=
  match decode OpcodeMap.standard (tableBytes nbits w) with
  | .ok (i, _) => some i
  | .error _ => none

/-- The words of an instruction: its opcode byte, then its operand bytes (R60, R62, R65). -/
def encode (m : OpcodeMap) (i : Instr) : List Byte := m.byteOf i.mnemonic :: i.operands

end Sys2Proof
end

