-- ==== Sys2Proof/Machine/Params.lean ====
section
/-! DEFINITION. Default parameters and reset values (spec/00_scope.md R5, spec/10_state.md R35). -/

namespace Sys2Proof.Machine

/-- `IM_RESET` of `State.reset`. DESIGN CHOICE (log entry 3): the spec leaves it open (D8); the worked
examples of spec/95_test_vectors.md start from this value. -/
def defaultImReset : Byte := 0xFF

/-- `STACK_FLOOR`'s default (D15; log entry 4). -/
def defaultStackFloor : Byte := 0x00

/-- The parameters of `State.reset`. -/
def defaultConfig : Config where
  opcodeMap := OpcodeMap.standard
  imReset := defaultImReset
  stackFloor := defaultStackFloor

/-- R0 to R6: "always present, initialized to 0" (R35). -/
def resetRegister : Byte := 0x00

/-- `STACK_BASE`: the empty-stack value of R7 and its reset value (R5, R35). -/
def stackBase : Byte := 0xF4

/-- The entry point (R35, R191; the spec's decision D6, log entry 6). -/
def resetPc : PcWord := 0x000

/-- No comparison outcome set (R35; the spec's decision D7, log entry 6). -/
def resetFlags : Byte := 0x00

/-- Nothing pending (R35; the spec's decision D8, log entry 6). -/
def resetPending : Byte := 0x00

end Sys2Proof.Machine
end

