-- ==== Sys2Proof/Machine/State.lean ====
section
/-! DEFINITION. The whole state of the machine (spec/10_state.md section 1), the fault kinds
(spec/60_exceptions.md R160), and reset (R35, R190). -/

namespace Sys2Proof.Machine

/-- The names of the eight general registers (R20); `r7` is the stack pointer (R21). -/
inductive Reg where
  | r0 | r1 | r2 | r3 | r4 | r5 | r6 | r7
deriving DecidableEq, Repr

/-- The register file: "exactly 8 slots" (R20). -/
structure RegFile where
  x0 : Byte
  x1 : Byte
  x2 : Byte
  x3 : Byte
  x4 : Byte
  x5 : Byte
  x6 : Byte
  x7 : Byte
deriving DecidableEq, Repr

/-- The six faults of the closed taxonomy (R160), each with the `info` its record holds (R169). The spec
describes the effect of every one of them (R168): the machine goes to a state with the record latched
and `RUN` cleared. So each is taken as a NEXT state, and no step of this model answers the host's
`fault` outcome (log entry 7). -/
inductive Fault where
  /-- Raised by the step when the fetched byte is not in `OPCODE_MAP` (R161). Safe: the spec's own fault. -/
  | unknownInstruction (op : Byte)
  /-- Raised by DIV and MOD with a zero divisor (R162). Safe: the spec's own fault. -/
  | divisionByZero
  /-- Raised by the opcode and operand fetch, by CALL and by the interrupt entry (R163); `addr` is the
  out-of-range address or pc value. Safe: the spec's own fault. -/
  | memoryOutOfBounds (addr : PcWord)
  /-- Raised by PUSH, CALL and the interrupt entry (R164). Safe: the spec's own fault. -/
  | stackOverflow (sp : Byte)
  /-- Raised by POP, RET and IRET (R165). Safe: the spec's own fault. -/
  | stackUnderflow (sp : Byte)
  /-- Raised by every instruction with a register operand above 7, and by INT with a number above 7
  (R166, the spec's decisions D16 and D17). Safe: a fault where the emulator may go on. -/
  | invalidOperand (v : Byte)
deriving DecidableEq, Repr

/-- Why the model gives an instruction no meaning. Nothing raises it: every instruction has its meaning. -/
inductive Refusal where
  /-- Kept for an arm of `exec` without a meaning; there is none. Safe: it stops. -/
  | notModelled (mnemonic : String)
deriving DecidableEq, Repr

/-- The fault record (R169): kind and info, the `pc` at the start of the faulting step (for an entry
fault: after phase 5), and whether the interrupt entry raised it. -/
structure FaultRecord where
  fault : Fault
  pc : PcWord
  inEntry : Bool
deriving DecidableEq, Repr

/-- The mode of an output record (R31). -/
inductive OutMode where
  | dec
  | chr
deriving DecidableEq, Repr

/-- One record of the output side-channel (R31). -/
structure OutRecord where
  mode : OutMode
  value : Byte
deriving DecidableEq, Repr

/-- Every piece of state the spec names, and `cfg`, the parameters of the machine. -/
structure State where
  /-- The parameters (R5): constants that no step writes; the model's own field (log entry 2). -/
  cfg : Config
  /-- `x[0]` to `x[7]` (R20, R21). -/
  regs : RegFile
  /-- The program counter (R22). -/
  pc : PcWord
  /-- `FL`: bit 0 E, bit 1 G, bit 2 L (R23, R24). -/
  fl : Byte
  /-- `IM`, the interrupt mask (R25). -/
  im : Byte
  /-- `IS`, the pending vector (R26). -/
  is : Byte
  /-- `IM_SAVED` (R27). -/
  imSaved : Byte
  /-- `RUN` (R28). -/
  run : Bool
  /-- `FAULT` (R29). -/
  fault : Option FaultRecord
  /-- `Mem` (R30). -/
  mem : Memory
  /-- `OUT`, the oldest record first (R31). -/
  out : List OutRecord
deriving DecidableEq, Repr

/-- Reset of a machine with these parameters and this `INITIAL_MEMORY` (R35, R190). -/
def State.resetWith (c : Config) (image : Memory) : State where
  cfg := c
  regs := ⟨resetRegister, resetRegister, resetRegister, resetRegister, resetRegister, resetRegister,
    resetRegister, stackBase⟩
  pc := resetPc
  fl := resetFlags
  im := c.imReset
  is := resetPending
  imSaved := c.imReset
  run := true
  fault := none
  mem := image
  out := []

/-- The machine right after reset, with the default parameters and nothing listed in memory (log entries
1, 3, 4, 5). -/
def State.reset : State := State.resetWith defaultConfig []

end Sys2Proof.Machine
end

