-- ==== Sys2Proof/Machine/Ops.lean ====
section
/-! DEFINITION. The shared operations: registers, memory, output, the stack, the pc advance, taking a
fault, taking an interrupt and returning from one, and fetching an instruction. -/

namespace Sys2Proof.Machine

/-- What an instruction or a step answers. -/
abbrev Result := Host.Outcome State Fault Refusal

/-! Bits -/

/-- `zext_9` (spec/00_scope.md R7). -/
def zext9 (v : Byte) : PcWord := v.setWidth 9

/-- `v[7:0]` of a 9-bit value. -/
def lowByte (p : PcWord) : Byte := p.setWidth 8

/-- An exact integer reduced modulo 256 (R8: "only through an explicit `mod 256`"). -/
def narrow (n : Int) : Byte := BitVec.ofInt 8 n

/-- The value is an address, 0x00 to 0xFF (spec/20_memory.md R42). -/
def addressInRange (p : PcWord) : Bool := decide (p.toNat ≤ 0xFF)

/-- The bit of interrupt number `n` in `IS` and `IM` (spec/60_exceptions.md R171). -/
def lineBit (n : Nat) : Byte := (1 : Byte) <<< n

/-! Registers -/

/-- `x[i]` (spec/10_state.md R20). -/
def RegFile.get (f : RegFile) : Reg → Byte
  | .r0 => f.x0
  | .r1 => f.x1
  | .r2 => f.x2
  | .r3 => f.x3
  | .r4 => f.x4
  | .r5 => f.x5
  | .r6 => f.x6
  | .r7 => f.x7

/-- `x[i] <- v` (R20: no register is hardwired). -/
def RegFile.set (f : RegFile) (r : Reg) (v : Byte) : RegFile :=
  match r with
  | .r0 => { f with x0 := v }
  | .r1 => { f with x1 := v }
  | .r2 => { f with x2 := v }
  | .r3 => { f with x3 := v }
  | .r4 => { f with x4 := v }
  | .r5 => { f with x5 := v }
  | .r6 => { f with x6 := v }
  | .r7 => { f with x7 := v }

def State.reg (s : State) (r : Reg) : Byte := s.regs.get r

def State.setReg (s : State) (r : Reg) (v : Byte) : State := { s with regs := s.regs.set r v }

/-- `SP` is `x[7]` (R21). -/
def State.sp (s : State) : Byte := s.reg .r7

/-! Memory and output -/

/-- `MemRead(a, 1)` (spec/20_memory.md R41). -/
def State.load (s : State) (a : Byte) : Byte := s.mem.read a

/-- `MemWrite(a, 1, v)` (R41). -/
def State.store (s : State) (a v : Byte) : State := { s with mem := s.mem.write a v }

/-- `Out(mode, v)` (spec/10_state.md R31). -/
def State.emit (s : State) (mode : OutMode) (v : Byte) : State := { s with out := s.out ++ [⟨mode, v⟩] }

/-! Program counter -/

/-- `pc <- zext_9(v)`: every control transfer loads an 8-bit value (spec/44_jumps.md R145). -/
def State.jump (s : State) (v : Byte) : State := { s with pc := zext9 v }

/-- The default advance, "`1 + operandCount`" (spec/40_step_cycle.md R86). -/
def State.advance (s : State) (count : Nat) : State := { s with pc := s.pc + BitVec.ofNat 9 (1 + count) }

/-! Taking a fault -/

/-- The effect of a fault: the record latched and `RUN` cleared, everything else as it was
(spec/60_exceptions.md R168, R169). -/
def State.latch (s : State) (f : Fault) (inEntry : Bool) : State :=
  { s with fault := some ⟨f, s.pc, inEntry⟩, run := false }

/-- `raise` inside an instruction: `s` is the state at the start of the step, so every change of the
step is discarded (R168; spec/40_step_cycle.md R88). -/
def raise (f : Fault) (s : State) : Result := .next (s.latch f false)

/-- `raise` inside the interrupt entry: `s` is the state after phase 5 (R175). -/
def raiseInEntry (f : Fault) (s : State) : Result := .next (s.latch f true)

/-! The stack -/

/-- `SP - k >= STACK_FLOOR`, over the integers (spec/43_stack_call.md R130). -/
def State.canPush (s : State) (k : Nat) : Bool := decide (s.cfg.stackFloor.toNat + k ≤ s.sp.toNat)

/-- `SP + k <= STACK_BASE`, over the integers (R131). -/
def State.canPop (s : State) (k : Nat) : Bool := decide (s.sp.toNat + k ≤ stackBase.toNat)

/-- `SP <- SP - 1`, the first half of a push (R130). -/
def State.decSp (s : State) : State := s.setReg .r7 (s.sp - 1)

/-- `SP <- SP + 1`, the last half of a pop (R131). -/
def State.incSp (s : State) : State := s.setReg .r7 (s.sp + 1)

/-- "PUSH decrements then writes" (R130). -/
def State.push (s : State) (v : Byte) : State := s.decSp.store s.decSp.sp v

/-- Push the bytes of a list, its head first. -/
def State.pushAll (s : State) (vs : List Byte) : State := vs.foldl State.push s

/-- The byte a pop reads (R131). -/
def State.top (s : State) : Byte := s.load s.sp

/-- Pop into a register other than R7: "POP reads then increments" (R131). -/
def State.popReg (s : State) (r : Reg) : State := (s.setReg r s.top).incSp

/-- Pop into `FL`. -/
def State.popFlags (s : State) : State := { s with fl := s.top }.incSp

/-- Pop into `pc`. -/
def State.popPc (s : State) : State := (s.jump s.top).incSp

/-! Taking an interrupt, and returning from one -/

/-- The deliverable lines (spec/60_exceptions.md R172). -/
def State.deliverable (s : State) : Byte := s.is &&& s.im

/-- "the least i in 0..7" with its bit set (R173; the spec's decision D11, log entry 12). -/
def lowestLine (d : Byte) : Option Line :=
  ([0, 1, 2, 3, 4, 5, 6, 7] : List Line).find? (fun n => d.getLsbD n.val)

/-- The vector of interrupt `n` is the byte at 0xF8 + n (spec/20_memory.md R46; D12, log entry 12). -/
def vectorAddress (n : Line) : Byte := 0xF8 + BitVec.ofNat 8 n.val

/-- The bytes the entry pushes, the first pushed first (spec/60_exceptions.md R174, R178; D13). -/
def State.entryFrame (s : State) : List Byte :=
  [lowByte s.pc, s.fl, s.reg .r0, s.reg .r1, s.reg .r2, s.reg .r3, s.reg .r4, s.reg .r5, s.reg .r6]

/-- The interrupt entry for line `n` (R174), with its guards in the order of R175. The vector is read
after the pushes (D29). -/
def takeInterrupt (n : Line) (s : State) : Result :=
  if addressInRange s.pc = false then raiseInEntry (.memoryOutOfBounds s.pc) s
  else if s.canPush 9 = false then raiseInEntry (.stackOverflow s.sp) s
  else
    let taken := { s with imSaved := s.im, im := 0x00, is := s.is &&& ~~~(lineBit n.val) }
    let saved := taken.pushAll s.entryFrame
    .next (saved.jump (saved.load (vectorAddress n)))

/-- Phase 6 of the step, once after each completed instruction (spec/40_step_cycle.md R87). -/
def interruptCheck (s : State) : Result :=
  match lowestLine s.deliverable with
  | none => .next s
  | some n => takeInterrupt n s

/-- The pops of IRET: R6 to R0, `FL`, `pc` (spec/45_system.md R151). -/
def State.popFrame (s : State) : State :=
  ((((((((s.popReg .r6).popReg .r5).popReg .r4).popReg .r3).popReg .r2).popReg .r1).popReg .r0).popFlags).popPc

/-- The return from an interrupt: the frame popped, then `IM <- IM_SAVED` (R151). -/
def returnFromInterrupt (s : State) : Result :=
  if s.canPop 9 = false then raise (.stackUnderflow s.sp) s
  else
    let popped := s.popFrame
    .next { popped with im := popped.imSaved }

/-! The step's own parts -/

/-- The bytes from `pc` that exist, at most the three of the longest instruction: a byte past 0xFF is
never read and `pc` never wraps (spec/40_step_cycle.md R82, R84). -/
def State.fetchWindow (s : State) : List Byte :=
  (([0, 1, 2].map (s.pc.toNat + ·)).filter (fun a => a ≤ 0xFF)).map (fun a => s.load (BitVec.ofNat 8 a))

/-- Phases 1 to 3: opcode fetch (R82), decode (R83), operand fetch (R84). -/
def fetch (s : State) : Except Fault Instr :=
  match decode s.cfg.opcodeMap s.fetchWindow with
  | .ok (i, _) => .ok i
  | .error .noOpcode => .error (.memoryOutOfBounds s.pc)
  | .error (.unknownInstruction op) => .error (.unknownInstruction op)
  | .error (.truncated n) => .error (.memoryOutOfBounds (s.pc + BitVec.ofNat 9 n))

/-- A step runs only while `RUN = 1`; a machine with a latched fault never steps again (R81). -/
def State.runnable (s : State) : Bool := s.run && s.fault.isNone

/-- Phase 6 follows an instruction that completed; it does not follow one that raised a fault (R87). -/
def afterInstruction : Result → Result
  | .next t => if t.fault.isSome then .next t else interruptCheck t
  | .fault f => .fault f
  | .refused r => .refused r

/-- Store bytes where the next instruction is fetched. -/
def State.placeAtPc (s : State) (bytes : List Byte) : State :=
  { s with mem := s.mem.writeBytes s.pc.toNat bytes }

end Sys2Proof.Machine
end

