-- ==== Sys2Proof/Machine/Operands.lean ====
section
/-! DEFINITION. Operand forms: the only operands are register bytes and LDI's immediate
(spec/30_encoding.md R63, R64). -/

namespace Sys2Proof.Machine

/-- The register a byte selects: "its value 0 to 7 selects R0 to R7" (R63). -/
def Reg.ofByte (v : Byte) : Option Reg :=
  match v.toNat with
  | 0 => some .r0
  | 1 => some .r1
  | 2 => some .r2
  | 3 => some .r3
  | 4 => some .r4
  | 5 => some .r5
  | 6 => some .r6
  | 7 => some .r7
  | _ => none

/-- The byte that selects a register (R63: `00000rrr`). -/
def Reg.toByte : Reg → Byte
  | .r0 => 0
  | .r1 => 1
  | .r2 => 2
  | .r3 => 3
  | .r4 => 4
  | .r5 => 5
  | .r6 => 6
  | .r7 => 7

/-- `ra <- reg(a)`, before any effect (spec/41_data_movement.md R100). -/
def withReg (a : Byte) (s : State) (body : Reg → Result) : Result :=
  match Reg.ofByte a with
  | none => raise (.invalidOperand a) s
  | some ra => body ra

/-- `ra <- reg(a); rb <- reg(b)`: regA is checked first (R100). -/
def withRegs (a b : Byte) (s : State) (body : Reg → Reg → Result) : Result :=
  withReg a s fun ra => withReg b s fun rb => body ra rb

end Sys2Proof.Machine
end

