-- ==== Sys2Proof/Machine/Alu.lean ====
section
/-! DEFINITION. The ALU and its twelve instructions (spec/42_alu.md). -/

namespace Sys2Proof.Machine

/-- "`compute(op, a, b) -> (result: byte, flagsDelta)`" (R110): `none` is "nothing is written". -/
structure AluOut where
  result : Option Byte
  flags : Option Byte
deriving DecidableEq, Repr

/-- An operation with a result and no flag effect. -/
def aluResult (v : Byte) : Except Fault AluOut := .ok ⟨some v, none⟩

/-- The ALU: a pure function of the tag and the operands (R110, R123). Integer arithmetic is exact and
narrowed at the end; DIV and MOD fault on a zero divisor before the operation (R114, R115). -/
def aluCompute (op : AluOp) (a b : Byte) : Except Fault AluOut :=
  match op with
  | .add => aluResult (narrow (a.toNat + b.toNat))
  | .sub => aluResult (narrow (a.toNat - b.toNat))
  | .mul => aluResult (narrow (a.toNat * b.toNat))
  | .div => if b.toNat = 0 then .error .divisionByZero else aluResult (narrow (a.toNat / b.toNat : Nat))
  | .mod => if b.toNat = 0 then .error .divisionByZero else aluResult (narrow (a.toNat % b.toNat : Nat))
  | .and => aluResult (a &&& b)
  | .or => aluResult (a ||| b)
  | .xor => aluResult (a ^^^ b)
  | .inc => aluResult (narrow (a.toNat + 1))
  | .dec => aluResult (narrow (a.toNat - 1))
  | .not => aluResult (~~~a)
  | .cmp => .ok ⟨none, some (compareFlags a b)⟩

/-- "write result back to regA (except CMP, which only updates Flags)" (R110). -/
def State.writeBack (s : State) (ra : Reg) (o : AluOut) : State :=
  { s with
    regs := match o.result with
      | some v => s.regs.set ra v
      | none => s.regs
    fl := o.flags.getD s.fl }

/-- Write back and advance past `count` operand bytes, or take the ALU's fault. -/
def aluFinish (ra : Reg) (count : Nat) (s : State) : Except Fault AluOut → Result
  | .error f => raise f s
  | .ok o => .next ((s.writeBack ra o).advance count)

/-- An ALU instruction `op regA, regB` (R110). -/
def aluTwo (op : AluOp) (a b : Byte) (s : State) : Result :=
  withRegs a b s fun ra rb => aluFinish ra 2 s (aluCompute op (s.reg ra) (s.reg rb))

/-- An ALU instruction `op regA`: operand b is ignored (R110, R121). -/
def aluOne (op : AluOp) (a : Byte) (s : State) : Result :=
  withReg a s fun ra => aluFinish ra 1 s (aluCompute op (s.reg ra) 0)

/-- ADD regA, regB (R111). -/
def execAdd (a b : Byte) (s : State) : Result := aluTwo .add a b s

/-- SUB regA, regB (R112). -/
def execSub (a b : Byte) (s : State) : Result := aluTwo .sub a b s

/-- MUL regA, regB (R113). -/
def execMul (a b : Byte) (s : State) : Result := aluTwo .mul a b s

/-- DIV regA, regB (R114). -/
def execDiv (a b : Byte) (s : State) : Result := aluTwo .div a b s

/-- MOD regA, regB (R115). -/
def execMod (a b : Byte) (s : State) : Result := aluTwo .mod a b s

/-- AND regA, regB (R116). -/
def execAnd (a b : Byte) (s : State) : Result := aluTwo .and a b s

/-- OR regA, regB (R117). -/
def execOr (a b : Byte) (s : State) : Result := aluTwo .or a b s

/-- XOR regA, regB (R118). -/
def execXor (a b : Byte) (s : State) : Result := aluTwo .xor a b s

/-- INC regA (R119). -/
def execInc (a : Byte) (s : State) : Result := aluOne .inc a s

/-- DEC regA (R120). -/
def execDec (a : Byte) (s : State) : Result := aluOne .dec a s

/-- NOT regA (R121). -/
def execNot (a : Byte) (s : State) : Result := aluOne .not a s

/-- CMP regA, regB (R122). -/
def execCmp (a b : Byte) (s : State) : Result := aluTwo .cmp a b s

end Sys2Proof.Machine
end

