-- ==== Sys2Proof/Machine/DataMove.lean ====
section
/-! DEFINITION. Data movement and output (spec/41_data_movement.md). -/

namespace Sys2Proof.Machine

/-- LDI regA, imm8 (R101). -/
def execLdi (a imm : Byte) (s : State) : Result :=
  withReg a s fun ra => .next ((s.setReg ra imm).advance 2)

/-- LD regA, regB: the address is read before the register is overwritten (R102). -/
def execLd (a b : Byte) (s : State) : Result :=
  withRegs a b s fun ra rb => .next ((s.setReg ra (s.load (s.reg rb))).advance 2)

/-- ST regA, regB: regA holds the address, regB the value (R103). -/
def execSt (a b : Byte) (s : State) : Result :=
  withRegs a b s fun ra rb => .next ((s.store (s.reg ra) (s.reg rb)).advance 2)

/-- PRN and PRA: one record of the given mode (R104, R105). -/
def printReg (mode : OutMode) (a : Byte) (s : State) : Result :=
  withReg a s fun ra => .next ((s.emit mode (s.reg ra)).advance 1)

/-- PRN regA (R104). -/
def execPrn (a : Byte) (s : State) : Result := printReg .dec a s

/-- PRA regA (R105). -/
def execPra (a : Byte) (s : State) : Result := printReg .chr a s

end Sys2Proof.Machine
end

