-- ==== Sys2Proof/Machine/Jumps.lean ====
section
/-! DEFINITION. Jumps (spec/44_jumps.md). The operand is checked whether or not the jump is taken. -/

namespace Sys2Proof.Machine

/-- A register-indirect absolute jump taken when `taken` holds, else the default advance (R145). -/
def jumpWhen (taken : Bool) (a : Byte) (s : State) : Result :=
  withReg a s fun ra => .next (if taken then s.jump (s.reg ra) else s.advance 1)

/-- JMP regA (R140). -/
def execJmp (a : Byte) (s : State) : Result := jumpWhen true a s

/-- JEQ regA: E (R141). -/
def execJeq (a : Byte) (s : State) : Result := jumpWhen (flagE s.fl) a s

/-- JNE regA: not E (R142). -/
def execJne (a : Byte) (s : State) : Result := jumpWhen (!flagE s.fl) a s

/-- JGT regA: G (R143). -/
def execJgt (a : Byte) (s : State) : Result := jumpWhen (flagG s.fl) a s

/-- JLT regA: L (R144). -/
def execJlt (a : Byte) (s : State) : Result := jumpWhen (flagL s.fl) a s

end Sys2Proof.Machine
end

