-- ==== Sys2Proof/Machine/StackCall.lean ====
section
/-! DEFINITION. Stack and subroutine instructions (spec/43_stack_call.md). Statements execute in the order
written, which shows when the operand register is R7 (D20, log entry 14). -/

namespace Sys2Proof.Machine

/-- PUSH regA: `SP` is decremented first and the register read second (R132). -/
def execPush (a : Byte) (s : State) : Result :=
  withReg a s fun ra =>
    if s.canPush 1 = false then raise (.stackOverflow s.sp) s
    else .next ((s.push (s.decSp.reg ra)).advance 1)

/-- POP regA: the register is loaded first and `SP` incremented second (R133). -/
def execPop (a : Byte) (s : State) : Result :=
  withReg a s fun ra =>
    if s.canPop 1 = false then raise (.stackUnderflow s.sp) s
    else .next ((s.popReg ra).advance 1)

/-- CALL regA: the return address `pc + 2` must fit a byte; the target is read after the push (R134). -/
def execCall (a : Byte) (s : State) : Result :=
  withReg a s fun ra =>
    let ret := s.pc + 2
    if addressInRange ret = false then raise (.memoryOutOfBounds ret) s
    else if s.canPush 1 = false then raise (.stackOverflow s.sp) s
    else
      let pushed := s.push (lowByte ret)
      .next (pushed.jump (pushed.reg ra))

/-- RET (R135). -/
def execRet (s : State) : Result :=
  if s.canPop 1 = false then raise (.stackUnderflow s.sp) s else .next s.popPc

end Sys2Proof.Machine
end

