-- ==== Sys2Proof/Machine/System.lean ====
section
/-! DEFINITION. System instructions (spec/45_system.md). -/

namespace Sys2Proof.Machine

/-- INT regA: the register's value is the interrupt number; its pending bit is set and `pc` takes the
default advance. The entry, if deliverable, is phase 6 of the same step (R150). -/
def execInt (a : Byte) (s : State) : Result :=
  withReg a s fun ra =>
    let n := s.reg ra
    if n.toNat > 7 then raise (.invalidOperand n) s
    else .next ({ s with is := s.is ||| lineBit n.toNat }.advance 1)

/-- IRET (R151). -/
def execIret (s : State) : Result := returnFromInterrupt s

/-- NOP: "no effect besides PC advance" (R152). -/
def execNop (s : State) : Result := .next (s.advance 0)

/-- HLT: "clear run flag"; `pc` advances by 1 (R153). -/
def execHlt (s : State) : Result := .next ({ s with run := false }.advance 0)

end Sys2Proof.Machine
end

