-- ==== Sys2Proof/Machine/Step.lean ====
section
/-! DEFINITION. One step of the machine (spec/40_step_cycle.md R93). -/

namespace Sys2Proof.Machine

/-- The complete step: nothing when it may not run (R81), a fault of the fetch (R82 to R84), or the
decoded instruction followed by the interrupt check (R85 to R87). -/
def step (s : State) : Host.Outcome State Fault Refusal :=
  if s.runnable then
    match fetch s with
    | .error f => raise f s
    | .ok i => afterInstruction (exec i s)
  else .next s

/-- `s` with an instruction of spec/opcode_table.json's bits stored where it is fetched, at `pc`. A
program is loaded from outside the machine (R4, R190); this stands for that load (log entry 19). -/
def State.withFetchWord (s : State) (nbits w : Nat) : State := s.placeAtPc (tableBytes nbits w)

end Sys2Proof.Machine
end

