-- ==== Sys2Proof/Machine/Environment.lean ====
section
/-! DEFINITION. What the outside may do between two steps (spec/40_step_cycle.md R91), and the driver
(R92). The events are arguments, so a statement over all of them covers every environment. -/

namespace Sys2Proof.Machine

/-- The two things that may happen between steps (R91). -/
inductive EnvEvent where
  /-- `IS <- IS | e`: external interrupt sources raise lines. -/
  | raiseLines (e : Byte)
  /-- `RUN <- 0`: an external stop request. -/
  | stop
deriving DecidableEq, Repr

/-- The effect of one event: `IS` or `RUN`, "Nothing else changes between steps" (R91). -/
def applyEvent (s : State) : EnvEvent → State
  | .raiseLines e => { s with is := s.is ||| e }
  | .stop => { s with run := false }

/-- All events between two steps, in order. -/
def applyEvents (s : State) (es : List EnvEvent) : State := es.foldl applyEvent s

/-- The driver: it tests `RUN` after every step and stops when it is 0, invokes a step only while `RUN` is 1
(R81, R92), and lets the environment act before each step (R91). One list of events for each step; it
applies no timeout. DESIGN CHOICE (log entry 18): events offered after the end of the run are not applied,
so the state answered is the one at the boundary where `RUN` was 0 (R196). After the run the driver reads `RUN`, `FAULT` and `OUT` in the state answered (R80). -/
def driverRun (s : State) : List (List EnvEvent) → Result
  | [] => .next s
  | es :: rest =>
    if s.run = false then .next s
    else if (applyEvents s es).run = false then .next (applyEvents s es)
    else
      match step (applyEvents s es) with
      | .next t => driverRun t rest
      | .fault f => .fault f
      | .refused r => .refused r

end Sys2Proof.Machine
end

