-- ==== Sys2Proof/Machine/Loader.lean ====
section
/-! DEFINITION. The loader's effect and the output channel's rendering: two external collaborators the
spec describes only where they meet the core (spec/30_encoding.md R70, spec/70_reset_and_hazards.md R190,
spec/10_state.md R31). No step uses this file. -/

namespace Sys2Proof.Machine

/-- "malformed program source - reported before execution starts" (spec/60_exceptions.md R167). -/
inductive LoadError where
  /-- A token that is not eight binary digits, or other text after the byte (R70). -/
  | malformedToken (line : List Char)
  /-- More bytes than memory holds (log entry 20). -/
  | imageTooLong (bytes : Nat)
deriving DecidableEq, Repr

/-- Characters skipped around a token (log entry 20). -/
def isBlankChar (c : Char) : Bool := c == ' ' || c == '\t' || c == '\r'

/-- Eight binary digits, bit 7 first (R70). -/
def parseToken (token : List Char) : Option Byte :=
  if token.length = 8 ∧ token.all (fun c => c == '0' || c == '1') then
    some (BitVec.ofNat 8 (token.foldl (fun n c => 2 * n + (if c == '1' then 1 else 0)) 0))
  else none

/-- One source line: blank or comment (no byte), or a token with an optional inline comment (R70). -/
def parseLine (line : List Char) : Except LoadError (Option Byte) :=
  match line.dropWhile isBlankChar with
  | [] => .ok none
  | '#' :: _ => .ok none
  | text =>
    let isTokenChar := fun c => !(isBlankChar c || c == '#')
    match parseToken (text.takeWhile isTokenChar), (text.dropWhile isTokenChar).dropWhile isBlankChar with
    | some v, [] => .ok (some v)
    | some v, '#' :: _ => .ok (some v)
    | _, _ => .error (.malformedToken line)

/-- The bytes of a program source, in order (R70). -/
def parseSource : List (List Char) → Except LoadError (List Byte)
  | [] => .ok []
  | line :: rest =>
    match parseLine line, parseSource rest with
    | .error e, _ => .error e
    | .ok _, .error e => .error e
    | .ok none, .ok vs => .ok vs
    | .ok (some v), .ok vs => .ok (v :: vs)

/-- Memory after the loader: "writes each parsed byte sequentially starting at address 0" (R70); the other
bytes are those of `base`. -/
def loadImage (base : Memory) (source : List (List Char)) : Except LoadError Memory :=
  match parseSource source with
  | .error e => .error e
  | .ok vs => if vs.length ≤ 256 then .ok (base.writeBytes 0 vs) else .error (.imageTooLong vs.length)

/-- A launch: load, then reset (R190). On a `LoadError` "execution never begins". -/
def launch (c : Config) (base : Memory) (source : List (List Char)) : Except LoadError State :=
  (loadImage base source).map (State.resetWith c)

/-- What the channel shows for a record: "(DEC, v) is shown as the decimal representation of v" with no
leading zeros (R31); what a `CHR` record shows is not stated (N15). -/
def OutRecord.shown (r : OutRecord) : Option (List Char) :=
  match r.mode with
  | .dec => some (Nat.toDigits 10 r.value.toNat)
  | .chr => none

/-- The number of a fault in the spec's table (spec/60_exceptions.md R160). -/
def Fault.code : Fault → Nat
  | .unknownInstruction _ => 1
  | .divisionByZero => 2
  | .memoryOutOfBounds _ => 3
  | .stackOverflow _ => 4
  | .stackUnderflow _ => 5
  | .invalidOperand _ => 6

end Sys2Proof.Machine
end

