-- ==== Sys2Proof/Safety.lean ====
section
/-! DEFINITION. The words claims use: the machine's invariant, the states a run can reach, and how a run
ends. -/

namespace Sys2Proof

/-- Legal parameters: a map that satisfies R66 and a floor in 0x00 to 0xF3 (spec/00_scope.md R5). -/
abbrev Config.Legal (c : Config) : Prop := c.opcodeMap.Legal ∧ c.stackFloor.toNat ≤ 0xF3

namespace Machine

/-- The invariant of the machine. -/
structure State.Inv (s : State) : Prop where
  /-- The parameters are legal. -/
  config : s.cfg.Legal
  /-- Memory is in its canonical form. -/
  memory : s.mem.wf
  /-- "No value above 0x100 is reachable" (spec/10_state.md R22). -/
  pc : s.pc.toNat ≤ 0x100
  /-- "a machine with `FAULT != none` has `RUN = 0`" (R29). -/
  fault_stops : s.fault.isSome → s.run = false
  /-- The record's `pc` "is also the `pc` after it" (spec/60_exceptions.md R169). -/
  fault_pc : ∀ r, s.fault = some r → r.pc = s.pc
  /-- "`IM_SAVED` always holds `IM_RESET`" (R27). -/
  saved_mask : s.imSaved = s.cfg.imReset
  /-- "`IM` only ever holds `IM_RESET` or 0x00" (R27). -/
  mask : s.im = s.cfg.imReset ∨ s.im = 0x00

/-- The states that a launch with parameters `c` and `INITIAL_MEMORY` `image` can reach, by steps and by
anything the environment may do between them (spec/40_step_cycle.md R80, R91). -/
inductive Reachable (c : Config) (image : Memory) : State → Prop where
  | reset : Reachable c image (State.resetWith c image)
  | step {s t : State} : Reachable c image s → Machine.step s = .next t → Reachable c image t
  | event {s : State} (e : EnvEvent) : Reachable c image s → Reachable c image (applyEvent s e)

/-- How a run ended (spec/70_reset_and_hazards.md R196). HLT and an external stop leave the same `RUN` and
`FAULT`. -/
inductive RunEnd where
  | clean
  | instructionFault (r : FaultRecord)
  | entryFault (r : FaultRecord)
deriving DecidableEq, Repr

/-- "A run ends when, and only when, `RUN = 0` at a step boundary" (R196). -/
def State.runEnd (s : State) : Option RunEnd :=
  if s.run then none
  else
    match s.fault with
    | none => some .clean
    | some r => some (if r.inEntry then .entryFault r else .instructionFault r)

/-- An instruction raises a fault: the next state is `s` with the record latched and `RUN` cleared, and
nothing else changed (spec/60_exceptions.md R168). -/
def Raises (i : Instr) (s : State) (f : Fault) : Prop :=
  exec i s = .next { s with fault := some ⟨f, s.pc, false⟩, run := false }

end Machine

end Sys2Proof
end

