-- ==== Sys2Proof/Certificates/Slice0/Obligations.lean ====
section
/-! DEFINITION. The statements about the model. Operands: `ra.toByte` is the byte that selects register
`ra` (spec/30_encoding.md R63), so a statement over all registers is one over all legal operand bytes;
bytes above 7 have a statement of their own (`BadRegisterOperandFaults`). A statement over all states is
one over all parameters too, since `State` holds them. -/

open Sys2Proof Sys2Proof.Machine

namespace Sys2Proof.Claims

/-- Parameters and interrupt controller as before. -/
def SameControl (s t : State) : Prop :=
  t.cfg = s.cfg ∧ t.im = s.im ∧ t.is = s.is ∧ t.imSaved = s.imSaved

/-- Every byte of memory reads as before. -/
def SameMemory (s t : State) : Prop := ∀ a, t.load a = s.load a

/-- Every byte of memory but the one at `x` reads as before. -/
def SameMemoryOutside (x : Byte) (s t : State) : Prop := ∀ a, a ≠ x → t.load a = s.load a

/-- Every register but those of the list reads as before. -/
def SameRegistersBut (written : List Reg) (s t : State) : Prop := ∀ r, r ∉ written → t.reg r = s.reg r

/-- `RUN` and `FAULT` are as before, or the instruction raised a fault and nothing but they changed. -/
def RunsOnOrFaults (s t : State) : Prop :=
  (t.run = s.run ∧ t.fault = s.fault)
    ∨ ∃ f, t = { s with fault := some ⟨f, s.pc, false⟩, run := false }

/-- The instructions that write one general register and nothing else, with that register's operand byte. -/
def registerOnly : Instr → Option Byte
  | .ldi a _ | .ld a _ | .add a _ | .sub a _ | .mul a _ | .div a _ | .mod a _ | .and a _ | .or a _
  | .xor a _ | .inc a | .dec a | .not a => some a
  | _ => none

/-- The jumps: they write `pc` only. -/
def isJump : Instr → Bool
  | .jmp _ | .jeq _ | .jne _ | .jgt _ | .jlt _ => true
  | _ => false

/-- The address of byte `k` of the instruction at `pc`. -/
def byteAt (s : State) (k : Nat) : Byte := s.load (BitVec.ofNat 8 (s.pc.toNat + k))

end Sys2Proof.Claims

open Sys2Proof.Claims

/-! ### Encoding -/

/-- Decoding the words of any instruction gives it back and consumes exactly them, whatever follows, under
every opcode map that satisfies R66 (spec/30_encoding.md R61, R62, R65, R71). -/
def Obligations.DecodeOfEncodeIsIdentity : Prop :=
  ∀ (m : OpcodeMap) (i : Instr) (rest : List Byte), m.Legal → decode m (encode m i ++ rest) = .ok (i, rest)

/-- Whatever the decoder accepts is the words of the instruction it answers, followed by the rest: no word
has two readings and no operand byte is dropped (R71). -/
def Obligations.EncodeOfDecodeIsIdentity : Prop :=
  ∀ (m : OpcodeMap) (bs : List Byte) (i : Instr) (rest : List Byte), m.Legal →
    decode m bs = .ok (i, rest) → bs = encode m i ++ rest

/-- "Every byte value that is not one of the 30 opcodes is an unknown instruction", before any operand
byte is looked at, and no other byte is (R67). -/
def Obligations.UnknownOpcodesAreExactlyTheOthers : Prop :=
  ∀ (m : OpcodeMap) (op : Byte) (rest : List Byte),
    decode m (op :: rest) = .error (.unknownInstruction op) ↔ ∀ n : Mnemonic, m.byteOf n ≠ op

/-- "operandCount = opcode[7:6]" and "length = 1 + operandCount", 0, 1 or 2 operand bytes for every defined
opcode; a byte with `opcode[7:6] = 3` is unknown and takes no operand byte (R61). -/
def Obligations.LengthFollowsTopTwoBits : Prop :=
  ∀ (m : OpcodeMap) (op : Byte) (tail : List Byte), m.Legal →
    (∀ (i : Instr) (rest : List Byte), decode m (op :: tail) = .ok (i, rest) →
        (op :: tail).length = 1 + op.toNat / 64 + rest.length ∧ op.toNat / 64 ≤ 2)
      ∧ (op.toNat / 64 = 3 → decode m (op :: tail) = .error (.unknownInstruction op))

/-- The default map satisfies the three invariants of R66, and 226 bytes stand for nothing in it (R67). -/
def Obligations.DefaultMapIsLegal : Prop :=
  OpcodeMap.standard.Legal
    ∧ ((List.range 256).filter (fun v => !(Mnemonic.all.any fun n => OpcodeMap.standard.byteOf n == BitVec.ofNat 8 v))).length
        = 226

/-- Words written out from the encodings of R65 decode to the instruction they stand for. -/
def Obligations.SampleWordsDecode : Prop :=
  decode OpcodeMap.standard [0b10011001, 0b00000011, 0b11111111] = .ok (.ldi 3 255, [])
    ∧ decode OpcodeMap.standard [0b10011010, 0b00000001, 0b00000010] = .ok (.st 1 2, [])
    ∧ decode OpcodeMap.standard [0b10101001, 0b00000100, 0b00000111] = .ok (.sub 4 7, [])
    ∧ decode OpcodeMap.standard [0b01001101, 0b00000101] = .ok (.push 5, [])
    ∧ decode OpcodeMap.standard [0b01010011, 0b00000110] = .ok (.jlt 6, [])
    ∧ decode OpcodeMap.standard [0b00001011] = .ok (.iret, [])

/-- A register byte 0 to 7 selects R0 to R7 and any other selects nothing (R63); every register holds what
was last written to it and no write reaches another: none is hardwired (spec/10_state.md R20). -/
def Obligations.RegisterBytesSelectRegistersThatHold : Prop :=
  (∀ r : Reg, Reg.ofByte r.toByte = some r) ∧ (∀ (v : Byte) (r : Reg), Reg.ofByte v = some r → v = r.toByte)
    ∧ (∀ v : Byte, Reg.ofByte v = none ↔ 7 < v.toNat)
    ∧ ∀ (s : State) (r q : Reg) (v : Byte), (s.setReg r v).reg q = if q = r then v else s.reg q

/-! ### Registers and memory -/

/-- `MemRead` "returns the byte most recently written": `MemWrite(addr, 1, v)` replaces that byte with `v`
and changes no other byte; before any write a read gives the byte of `INITIAL_MEMORY`, or the loader's
byte where it wrote one. Both are total (spec/20_memory.md R41). -/
def Obligations.MemoryReadAfterWrite : Prop :=
  (∀ (s : State) (a b v : Byte), (s.store a v).load b = if b = a then v else s.load b)
    ∧ (∀ (c : Config) (image : Memory) (a : Byte), (State.resetWith c image).load a = image.read a)
    ∧ ∀ (c : Config) (base : Memory) (source : List (List Char)) (vs : List Byte) (s : State) (a : Byte),
      parseSource source = .ok vs → launch c base source = .ok s → s.load a = vs.getD a.toNat (base.read a)

/-- Two memories in canonical form that read alike at every address are the same data; every write keeps
the form. -/
def Obligations.EqualMemoriesAreEqualData : Prop :=
  (∀ m m' : Memory, m.wf → m'.wf → (∀ a, m.read a = m'.read a) → m = m')
    ∧ ∀ (m : Memory) (a v : Byte), m.wf → (m.write a v).wf

/-! ### The ALU -/

/-- The laws of the ALU: the result of each of the twelve operations on all operands, none of which but CMP
touches a flag; CMP has no result and gives the unsigned order of its operands as E, G and L (spec/42_alu.md
R110, R123, R124). That only CMP has a flag effect is the spec's decision D4 (log entry 26), the floor
quotient and the remainder D19 (log entry 25), the places of E, G and L D2 (log entry 11). -/
def Obligations.AluComputesItsTable : Prop :=
  ∀ a b : Byte,
    aluCompute .add a b = .ok ⟨some (BitVec.ofNat 8 ((a.toNat + b.toNat) % 256)), none⟩
      ∧ aluCompute .sub a b = .ok ⟨some (BitVec.ofNat 8 ((a.toNat + 256 - b.toNat) % 256)), none⟩
      ∧ aluCompute .mul a b = .ok ⟨some (BitVec.ofNat 8 (a.toNat * b.toNat % 256)), none⟩
      ∧ (b ≠ 0 → aluCompute .div a b = .ok ⟨some (BitVec.ofNat 8 (a.toNat / b.toNat)), none⟩)
      ∧ (b ≠ 0 → aluCompute .mod a b = .ok ⟨some (BitVec.ofNat 8 (a.toNat % b.toNat)), none⟩)
      ∧ (b = 0 → aluCompute .div a b = .error .divisionByZero ∧ aluCompute .mod a b = .error .divisionByZero)
      ∧ aluCompute .and a b = .ok ⟨some (a &&& b), none⟩
      ∧ aluCompute .or a b = .ok ⟨some (a ||| b), none⟩
      ∧ aluCompute .xor a b = .ok ⟨some (a ^^^ b), none⟩
      ∧ aluCompute .inc a b = .ok ⟨some (BitVec.ofNat 8 ((a.toNat + 1) % 256)), none⟩
      ∧ aluCompute .dec a b = .ok ⟨some (BitVec.ofNat 8 ((a.toNat + 255) % 256)), none⟩
      ∧ aluCompute .not a b = .ok ⟨some (BitVec.ofNat 8 (255 - a.toNat)), none⟩
      ∧ ∃ f : Byte, aluCompute .cmp a b = .ok ⟨none, some f⟩
        ∧ flagE f = decide (a.toNat = b.toNat) ∧ flagG f = decide (b.toNat < a.toNat) ∧ flagL f = decide (a.toNat < b.toNat)

/-- ADD, SUB, MUL, INC, DEC and NOT complete for all registers (the same one twice included): the result
modulo 256 in regA, `pc` past the instruction's bytes, nothing else changed, no flag in particular (R111 to
R113, R119 to R121; that arithmetic leaves `FL` alone is the spec's decision D4, log entry 26). -/
def Obligations.ArithmeticWrapsModulo256 : Prop :=
  ∀ (ra rb : Reg) (s : State),
    exec (.add ra.toByte rb.toByte) s = .next
        { s with regs := s.regs.set ra (BitVec.ofNat 8 (((s.reg ra).toNat + (s.reg rb).toNat) % 256)), pc := s.pc + 3 }
      ∧ exec (.sub ra.toByte rb.toByte) s = .next
        { s with regs := s.regs.set ra (BitVec.ofNat 8 (((s.reg ra).toNat + 256 - (s.reg rb).toNat) % 256)), pc := s.pc + 3 }
      ∧ exec (.mul ra.toByte rb.toByte) s = .next
        { s with regs := s.regs.set ra (BitVec.ofNat 8 ((s.reg ra).toNat * (s.reg rb).toNat % 256)), pc := s.pc + 3 }
      ∧ exec (.inc ra.toByte) s = .next
        { s with regs := s.regs.set ra (BitVec.ofNat 8 (((s.reg ra).toNat + 1) % 256)), pc := s.pc + 2 }
      ∧ exec (.dec ra.toByte) s = .next
        { s with regs := s.regs.set ra (BitVec.ofNat 8 (((s.reg ra).toNat + 255) % 256)), pc := s.pc + 2 }
      ∧ exec (.not ra.toByte) s = .next
        { s with regs := s.regs.set ra (BitVec.ofNat 8 (255 - (s.reg ra).toNat)), pc := s.pc + 2 }

/-- DIV and MOD with a non-zero divisor complete: `a = b * q + r` with `r < b`, which fixes the floor
quotient and the remainder; nothing else changes (R114, R115; the rounding is the spec's decision D19, log
entry 25). -/
def Obligations.DivModGiveQuotientAndRemainder : Prop :=
  ∀ (ra rb : Reg) (s : State), s.reg rb ≠ 0 →
    ∃ q r : Byte, (s.reg ra).toNat = (s.reg rb).toNat * q.toNat + r.toNat ∧ r.toNat < (s.reg rb).toNat
      ∧ exec (.div ra.toByte rb.toByte) s = .next { s with regs := s.regs.set ra q, pc := s.pc + 3 }
      ∧ exec (.mod ra.toByte rb.toByte) s = .next { s with regs := s.regs.set ra r, pc := s.pc + 3 }

/-- "DIV/MOD with zero divisor", for every dividend, 0 included: the fault is latched with the `pc` of the
instruction, the destination register keeps its value and nothing but `FAULT` and `RUN` changes
(spec/60_exceptions.md R162). -/
def Obligations.ZeroDivisorFaults : Prop :=
  ∀ (ra rb : Reg) (s : State), s.reg rb = 0 →
    Raises (.div ra.toByte rb.toByte) s .divisionByZero ∧ Raises (.mod ra.toByte rb.toByte) s .divisionByZero

/-- AND, OR and XOR complete bit by bit; nothing else changes (R116 to R118). -/
def Obligations.LogicWorksBitByBit : Prop :=
  ∀ (ra rb : Reg) (s : State), ∃ x y z : Byte,
    (∀ k, k < 8 → x.getLsbD k = ((s.reg ra).getLsbD k && (s.reg rb).getLsbD k)
        ∧ y.getLsbD k = ((s.reg ra).getLsbD k || (s.reg rb).getLsbD k)
        ∧ z.getLsbD k = ((s.reg ra).getLsbD k ^^ (s.reg rb).getLsbD k))
      ∧ exec (.and ra.toByte rb.toByte) s = .next { s with regs := s.regs.set ra x, pc := s.pc + 3 }
      ∧ exec (.or ra.toByte rb.toByte) s = .next { s with regs := s.regs.set ra y, pc := s.pc + 3 }
      ∧ exec (.xor ra.toByte rb.toByte) s = .next { s with regs := s.regs.set ra z, pc := s.pc + 3 }

/-- CMP completes and writes all of `FL`: E alone, G alone or L alone by the unsigned order of the
registers; no register changes (R122; the places of the bits and the zeros above them are the spec's
decisions D2 and D3, log entry 11). -/
def Obligations.CmpWritesOneFlag : Prop :=
  ∀ (ra rb : Reg) (s : State), ∃ f : Byte,
    exec (.cmp ra.toByte rb.toByte) s = .next { s with fl := f, pc := s.pc + 3 }
      ∧ (s.reg ra = s.reg rb → f = 0b00000001)
      ∧ ((s.reg rb).toNat < (s.reg ra).toNat → f = 0b00000010)
      ∧ ((s.reg ra).toNat < (s.reg rb).toNat → f = 0b00000100)
      ∧ flagE f = decide (s.reg ra = s.reg rb)
      ∧ flagG f = decide ((s.reg rb).toNat < (s.reg ra).toNat)
      ∧ flagL f = decide ((s.reg ra).toNat < (s.reg rb).toNat)

/-! ### Data movement and output -/

/-- LDI, LD and ST complete. LDI: regA holds the immediate, R7 included. LD: regA holds the byte at the
address regB held before, the same register included. ST: the byte at the address regA holds is regB's
value, every other byte and every register is as before. Nothing else changes (spec/41_data_movement.md
R101 to R103). -/
def Obligations.DataMovementResults : Prop :=
  ∀ (ra rb : Reg) (imm : Byte) (s : State),
    exec (.ldi ra.toByte imm) s = .next { s with regs := s.regs.set ra imm, pc := s.pc + 3 }
      ∧ exec (.ld ra.toByte rb.toByte) s = .next { s with regs := s.regs.set ra (s.load (s.reg rb)), pc := s.pc + 3 }
      ∧ ∃ t, exec (.st ra.toByte rb.toByte) s = .next t
        ∧ t.load (s.reg ra) = s.reg rb ∧ SameMemoryOutside (s.reg ra) s t
        ∧ t = { s with mem := t.mem, pc := s.pc + 3 }

/-- PRN and PRA complete: one record with the register's value is appended after all earlier ones; nothing
else changes (R104, R105; the list of records is the spec's decision D26, log entry 23). -/
def Obligations.PrintAppendsOneRecord : Prop :=
  ∀ (ra : Reg) (s : State),
    exec (.prn ra.toByte) s = .next { s with out := s.out ++ [⟨.dec, s.reg ra⟩], pc := s.pc + 2 }
      ∧ exec (.pra ra.toByte) s = .next { s with out := s.out ++ [⟨.chr, s.reg ra⟩], pc := s.pc + 2 }

/-! ### Stack and calls -/

/-- PUSH completes when `SP - 1` is not below `STACK_FLOOR`: `SP` is one less and the byte there is the
register's value, for R7 the new `SP` (spec/43_stack_call.md R132; for R7 the spec's decision D20, log
entry 14). -/
def Obligations.PushStoresBelowTheStackPointer : Prop :=
  ∀ (ra : Reg) (s : State), s.cfg.stackFloor.toNat + 1 ≤ s.sp.toNat →
    ∃ t, exec (.push ra.toByte) s = .next t
      ∧ t = { s with regs := s.regs.set .r7 (s.sp - 1), mem := t.mem, pc := s.pc + 2 }
      ∧ t.load (s.sp - 1) = (if ra = .r7 then s.sp - 1 else s.reg ra)
      ∧ SameMemoryOutside (s.sp - 1) s t

/-- POP completes when `SP + 1` is not above 0xF4: the register holds the byte at `SP`, and `SP` is one
more; for R7 it ends as that byte plus one. Memory is unchanged (R133; the empty-stack test is the spec's
decision D14, log entry 15; R7 is D20, log entry 14). -/
def Obligations.PopLoadsFromTheStackPointer : Prop :=
  ∀ (ra : Reg) (s : State), s.sp.toNat + 1 ≤ 0xF4 →
    (ra ≠ .r7 → exec (.pop ra.toByte) s = .next
        { s with regs := (s.regs.set ra (s.load s.sp)).set .r7 (s.sp + 1), pc := s.pc + 2 })
      ∧ exec (.pop Reg.r7.toByte) s = .next { s with regs := s.regs.set .r7 (s.load s.sp + 1), pc := s.pc + 2 }

/-- CALL completes when `pc + 2` fits a byte and one byte can be pushed: the return address is on the
stack and `pc` is the register's value, for R7 the new `SP` (R134; R7 is the spec's decision D20, log entry
14). When `pc + 2` does not fit a byte it raises MemoryOutOfBounds with that value and pushes nothing,
whatever `SP` is (R163; the spec's decision D18, log entry 16). -/
def Obligations.CallPushesTheReturnAddress : Prop :=
  ∀ (ra : Reg) (s : State),
    (s.pc.toNat + 2 ≤ 0xFF → s.cfg.stackFloor.toNat + 1 ≤ s.sp.toNat →
        ∃ t, exec (.call ra.toByte) s = .next t
          ∧ t = { s with regs := s.regs.set .r7 (s.sp - 1), mem := t.mem, pc := t.pc }
          ∧ t.pc.toNat = (if ra = .r7 then s.sp - 1 else s.reg ra).toNat
          ∧ (t.load (s.sp - 1)).toNat = s.pc.toNat + 2
          ∧ SameMemoryOutside (s.sp - 1) s t)
      ∧ (0xFF < (s.pc + 2).toNat → Raises (.call ra.toByte) s (.memoryOutOfBounds (s.pc + 2)))

/-- RET: `pc <- zext_9(MemRead(SP, 1))` and `SP <- SP + 1` unless `SP >= 0xF4`, where it raises
StackUnderflow; one byte, 0x09 under the default map; nothing else changes (R135; the opcode value is log
entry 1, the empty-stack test the spec's decision D14, log entry 15). -/
def Obligations.RetPopsThePc : Prop :=
  encode OpcodeMap.standard .ret = [0b00001001]
    ∧ ∀ s : State,
      (s.sp.toNat < 0xF4 → exec .ret s = .next
          { s with pc := (s.load s.sp).setWidth 9, regs := s.regs.set .r7 (s.sp + 1) })
        ∧ (0xF4 ≤ s.sp.toNat → Raises .ret s (.stackUnderflow s.sp))

/-- StackOverflow: PUSH and CALL raise it when `SP - 1 < STACK_FLOOR`, the interrupt entry when `SP - 9 <
STACK_FLOOR`; nothing is pushed; the record holds `pc` and `SP` (spec/60_exceptions.md R164). CALL's and
the entry's own pc guard comes first (R89, R134, R175): the guard is the spec's decision D18 (log entry 16),
the order of the checks D31 (log entry 22), the state after an entry fault D21 (log entry 17). -/
def Obligations.StackOverflowBelowTheFloor : Prop :=
  ∀ (ra : Reg) (n : Line) (s : State),
    (s.sp.toNat < s.cfg.stackFloor.toNat + 1 →
        Raises (.push ra.toByte) s (.stackOverflow s.sp)
          ∧ ((s.pc + 2).toNat ≤ 0xFF → Raises (.call ra.toByte) s (.stackOverflow s.sp)))
      ∧ (s.sp.toNat < s.cfg.stackFloor.toNat + 9 → s.pc.toNat ≤ 0xFF →
        takeInterrupt n s = .next { s with fault := some ⟨.stackOverflow s.sp, s.pc, true⟩, run := false })

/-- StackUnderflow: POP and RET raise it when `SP + 1 > STACK_BASE`, IRET when `SP + 9 > STACK_BASE`;
nothing is popped; the record holds `pc` and `SP` (R165; the test is the spec's decision D14, log entry
15). -/
def Obligations.StackUnderflowAtTheBase : Prop :=
  ∀ (ra : Reg) (s : State),
    (0xF4 < s.sp.toNat + 1 →
        Raises (.pop ra.toByte) s (.stackUnderflow s.sp) ∧ Raises .ret s (.stackUnderflow s.sp))
      ∧ (0xF4 < s.sp.toNat + 9 → Raises .iret s (.stackUnderflow s.sp))

/-- "PUSH followed immediately by POP to the same register round-trips the value and restores SP to its
pre-PUSH value": all registers are as before, for R7 too; and "CALL followed by RET returns PC to the
address immediately after the CALL instruction", from any state a subroutine leaves with `SP` and the
stack byte as CALL left them (spec/95_test_vectors.md T-L4, T-L5). The form with R7 rests on the spec's
decision D20 (log entry 14). The first instruction must have room for its byte, and `SP` must be at most
0xF4: above it POP and RET underflow (`StackUnderflowAtTheBase`; the spec's decision D14, log entry 15). -/
def Obligations.StackRoundTrips : Prop :=
  (∀ (ra : Reg) (s t : State), s.cfg.stackFloor.toNat + 1 ≤ s.sp.toNat → s.sp.toNat ≤ 0xF4 →
      exec (.push ra.toByte) s = .next t →
        ∃ u, exec (.pop ra.toByte) t = .next u ∧ u.regs = s.regs ∧ u.pc = s.pc + 4 ∧ u.fault = s.fault)
    ∧ ∀ (ra : Reg) (s t u : State), s.pc.toNat + 2 ≤ 0xFF → s.cfg.stackFloor.toNat + 1 ≤ s.sp.toNat →
      s.sp.toNat ≤ 0xF4 → exec (.call ra.toByte) s = .next t → u.sp = t.sp → u.load t.sp = t.load t.sp →
        ∃ v, exec .ret u = .next v ∧ v.pc = s.pc + 2 ∧ v.sp = s.sp

/-! ### Jumps -/

/-- The jumps complete. JMP goes to the register's value, zero-extended; JEQ, JNE, JGT and JLT each test
their own bit of `FL` (bit 0, not bit 0, bit 1, bit 2), go to the register's value when it holds and to
`pc + 2` when not. Nothing else changes (spec/44_jumps.md R140 to R144; the places of the bits are the
spec's decision D2, log entry 11). -/
def Obligations.JumpsTestOneFlagOrNone : Prop :=
  ∀ (ra : Reg) (s : State),
    let target : PcWord := BitVec.ofNat 9 (s.reg ra).toNat
    exec (.jmp ra.toByte) s = .next { s with pc := target }
      ∧ exec (.jeq ra.toByte) s = .next { s with pc := if s.fl.toNat % 2 = 1 then target else s.pc + 2 }
      ∧ exec (.jne ra.toByte) s = .next { s with pc := if s.fl.toNat % 2 = 0 then target else s.pc + 2 }
      ∧ exec (.jgt ra.toByte) s = .next { s with pc := if s.fl.toNat / 2 % 2 = 1 then target else s.pc + 2 }
      ∧ exec (.jlt ra.toByte) s = .next { s with pc := if s.fl.toNat / 4 % 2 = 1 then target else s.pc + 2 }

/-! ### System instructions -/

/-- INT with a register value 0 to 7 completes: that bit of `IS` is set, every other bit kept, and `pc`
takes the default advance (spec/45_system.md R150). With a value above 7 it raises InvalidOperand (the
spec's decision D17, log entry 10). -/
def Obligations.IntSetsOnePendingBit : Prop :=
  ∀ (ra : Reg) (s : State),
    ((s.reg ra).toNat ≤ 7 → ∃ v : Byte,
        (∀ k, k < 8 → v.getLsbD k = (s.is.getLsbD k || decide (k = (s.reg ra).toNat)))
          ∧ exec (.int ra.toByte) s = .next { s with is := v, pc := s.pc + 2 })
      ∧ (7 < (s.reg ra).toNat → Raises (.int ra.toByte) s (.invalidOperand (s.reg ra)))

/-- IRET completes when nine bytes are on the stack: R6 to R0, `FL` and `pc` are those bytes in ascending
addresses from `SP`, `SP` is nine more, `IM` is `IM_SAVED`; `IS`, memory and the rest are unchanged
(R151; `IM_SAVED`, the empty-stack test and that no active handler is needed are the spec's decisions D10,
D14 and D34, log entries 13, 15 and 17). -/
def Obligations.IretPopsTheFrame : Prop :=
  ∀ s : State, s.sp.toNat + 9 ≤ 0xF4 →
    exec .iret s = .next
      { s with
        regs := ⟨s.load (s.sp + 6), s.load (s.sp + 5), s.load (s.sp + 4), s.load (s.sp + 3),
          s.load (s.sp + 2), s.load (s.sp + 1), s.load s.sp, s.sp + 9⟩
        fl := s.load (s.sp + 7)
        pc := (s.load (s.sp + 8)).setWidth 9
        im := s.imSaved }

/-- NOP completes and changes `pc` only; HLT completes: `RUN` is cleared, `pc` advances by one, `FAULT` and
everything else stay (R152, R153). -/
def Obligations.NopAdvancesAndHltStops : Prop :=
  ∀ s : State, exec .nop s = .next { s with pc := s.pc + 1 }
    ∧ exec .hlt s = .next { s with run := false, pc := s.pc + 1 }

/-! ### Operand faults -/

/-- Every instruction with a register operand byte above 7 raises InvalidOperand for the first such byte,
regA before regB, and has no effect, whatever else would fault (R100, R166; the spec's decision D16, log
entry 9). -/
def Obligations.BadRegisterOperandFaults : Prop :=
  ∀ (i : Instr) (s : State) (v : Byte),
    i.registerOperands.find? (fun b => decide (7 < b.toNat)) = some v → Raises i s (.invalidOperand v)

/-! ### Frames -/

/-- LDI, LD, ADD, SUB, MUL, DIV, MOD, AND, OR, XOR, INC, DEC and NOT change only their destination register
(R7 when it is the destination) and `pc`; in particular no flag (the spec's decision D4, log entry 26) and
no byte of memory; or they raise a fault and change only `FAULT` and `RUN`. -/
def Obligations.RegisterInstructionFrame : Prop :=
  ∀ (i : Instr) (s t : State) (a : Byte), registerOnly i = some a → exec i s = .next t →
    SameRegistersBut (Reg.ofByte a).toList s t ∧ t.fl = s.fl ∧ SameControl s t ∧ SameMemory s t ∧ t.out = s.out
      ∧ RunsOnOrFaults s t

/-- CMP changes only `FL` and `pc`; PRN and PRA only `OUT` and `pc`; the jumps only `pc`; or they raise a
fault and change only `FAULT` and `RUN`. -/
def Obligations.CompareJumpAndPrintFrame : Prop :=
  (∀ (a b : Byte) (s t : State), exec (.cmp a b) s = .next t →
      t.regs = s.regs ∧ SameControl s t ∧ SameMemory s t ∧ t.out = s.out ∧ RunsOnOrFaults s t)
    ∧ (∀ (a : Byte) (s t : State), (exec (.prn a) s = .next t ∨ exec (.pra a) s = .next t) →
      t.regs = s.regs ∧ t.fl = s.fl ∧ SameControl s t ∧ SameMemory s t ∧ RunsOnOrFaults s t)
    ∧ ∀ (i : Instr) (s t : State), isJump i → exec i s = .next t →
      t.regs = s.regs ∧ t.fl = s.fl ∧ SameControl s t ∧ SameMemory s t ∧ t.out = s.out ∧ RunsOnOrFaults s t

/-- ST stores at `x[regA]` only; PUSH and CALL store at `SP - 1` only; ST changes no register, PUSH and
CALL only `SP`; no flag and nothing else changes but `pc`; or they raise a fault and change only `FAULT`
and `RUN`. -/
def Obligations.StoringInstructionFrame : Prop :=
  (∀ (a b : Byte) (ra : Reg) (s t : State), Reg.ofByte a = some ra → exec (.st a b) s = .next t →
      SameMemoryOutside (s.reg ra) s t ∧ t.regs = s.regs ∧ t.fl = s.fl ∧ SameControl s t ∧ t.out = s.out
        ∧ RunsOnOrFaults s t)
    ∧ ∀ (a : Byte) (s t : State), (exec (.push a) s = .next t ∨ exec (.call a) s = .next t) →
      SameMemoryOutside s.decSp.sp s t ∧ SameRegistersBut [.r7] s t ∧ t.fl = s.fl ∧ SameControl s t
        ∧ t.out = s.out ∧ RunsOnOrFaults s t

/-- POP changes only its register and `SP`; RET only `SP`; IRET only R0 to R6, `SP`, `FL` and `IM`; all of
them `pc`; none of them a byte of memory or `IS`; or they raise a fault and change only `FAULT` and `RUN`. -/
def Obligations.PoppingInstructionFrame : Prop :=
  (∀ (a : Byte) (s t : State), exec (.pop a) s = .next t →
      SameRegistersBut (.r7 :: (Reg.ofByte a).toList) s t ∧ t.fl = s.fl ∧ SameControl s t ∧ SameMemory s t
        ∧ t.out = s.out ∧ RunsOnOrFaults s t)
    ∧ (∀ s t : State, exec .ret s = .next t →
      SameRegistersBut [.r7] s t ∧ t.fl = s.fl ∧ SameControl s t ∧ SameMemory s t ∧ t.out = s.out
        ∧ RunsOnOrFaults s t)
    ∧ ∀ s t : State, exec .iret s = .next t →
      t.cfg = s.cfg ∧ t.is = s.is ∧ t.imSaved = s.imSaved ∧ SameMemory s t ∧ t.out = s.out ∧ RunsOnOrFaults s t

/-- INT changes only `IS` and `pc`, or raises a fault and changes only `FAULT` and `RUN`; NOP changes only
`pc`; HLT only `RUN`, which it clears, and `pc`. -/
def Obligations.IntNopHltFrame : Prop :=
  (∀ (a : Byte) (s t : State), exec (.int a) s = .next t →
      t.regs = s.regs ∧ t.fl = s.fl ∧ t.cfg = s.cfg ∧ t.im = s.im ∧ t.imSaved = s.imSaved ∧ SameMemory s t
        ∧ t.out = s.out ∧ RunsOnOrFaults s t)
    ∧ ∀ (i : Instr) (s t : State), i = .nop ∨ i = .hlt → exec i s = .next t →
      t.regs = s.regs ∧ t.fl = s.fl ∧ SameControl s t ∧ SameMemory s t ∧ t.out = s.out ∧ t.fault = s.fault
        ∧ t.run = (s.run && decide (i = .nop))

/-! ### Whole-machine rules over all instructions -/

/-- `FL` is written by no instruction but CMP and IRET; `IM` by none but IRET; `IM_SAVED` and the
parameters by none; `IS` by none but INT, which clears no bit; `OUT` only grows, by one record at most;
`RUN` is never set (spec/10_state.md R23, R25 to R28, R33; for `FL` the spec's decision D4, log entry 26). -/
def Obligations.WhoWritesTheSpecialRegisters : Prop :=
  ∀ (i : Instr) (s t : State), exec i s = .next t →
    (t.fl = s.fl ∨ i.mnemonic = .cmp ∨ i.mnemonic = .iret)
      ∧ (t.im = s.im ∨ i = .iret)
      ∧ t.imSaved = s.imSaved ∧ t.cfg = s.cfg
      ∧ (t.is = s.is ∨ i.mnemonic = .int ∧ t.is &&& s.is = s.is)
      ∧ (∃ more, t.out = s.out ++ more ∧ more.length ≤ 1)
      ∧ (t.run = true → s.run = true)

/-- An instruction whose descriptor does not set `pc` and that completes leaves `pc + 1 + operandCount`; a
conditional jump leaves that or a register's value; the others leave an address, 0x000 to 0x0FF
(spec/40_step_cycle.md R86, spec/44_jumps.md R145). -/
def Obligations.PcAdvanceOrTarget : Prop :=
  ∀ (i : Instr) (s t : State), exec i s = .next t → t.fault = s.fault → s.fault = none →
    (i.mnemonic.setsPc = .no → t.pc = s.pc + BitVec.ofNat 9 (1 + i.operands.length))
      ∧ (i.mnemonic.setsPc = .whenTaken → t.pc = s.pc + 2 ∨ ∃ r, t.pc = (s.reg r).setWidth 9)
      ∧ (i.mnemonic.setsPc = .yes → t.pc.toNat ≤ 0xFF)

/-- No instruction reads `IS`, `IM` or `OUT` as data: changing them before an instruction changes nothing
else after it, nor which bits it sets in `IS`, which records it appends to `OUT`, or what it does to `IM`
(leave it, or load `IM_SAVED`) (R25, R26, R31). -/
def Obligations.InstructionsDoNotReadPendingMaskOrOutput : Prop :=
  ∀ (i : Instr) (s t : State) (is im : Byte) (out : List OutRecord), exec i s = .next t →
    ∃ (raised : Byte) (printed : List OutRecord) (mask : Byte),
      t.is = s.is ||| raised ∧ t.out = s.out ++ printed
        ∧ (t.im = s.im ∧ mask = im ∨ t.im = s.imSaved ∧ mask = s.imSaved)
        ∧ exec i { s with is := is, im := im, out := out }
            = .next { t with is := is ||| raised, im := mask, out := out ++ printed }

/-! ### The step -/

/-- "A step invoked with `RUN = 0` changes nothing at all", nor does one with a latched fault
(spec/40_step_cycle.md R81; the first is the spec's decision D24, the second log entry 8). -/
def Obligations.StoppedMachineStaysStopped : Prop :=
  ∀ s : State, s.run = false ∨ s.fault ≠ none → step s = .next s

/-- When the bytes from `pc` decode to `i`, a step of a running machine is `exec i` followed by the
interrupt check, which a faulting instruction skips (R85, R87, R93). -/
def Obligations.StepRunsTheDecodedInstruction : Prop :=
  ∀ (s : State) (i : Instr) (rest : List Byte), s.run = true → s.fault = none →
    decode s.cfg.opcodeMap s.fetchWindow = .ok (i, rest) →
      ∃ t, exec i s = .next t ∧ step s = if t.fault = none then interruptCheck t else .next t

/-- Phases 1 to 3: `pc > 0xFF` raises MemoryOutOfBounds of `pc`; an opcode byte of no instruction raises
UnknownInstruction; operands past 0xFF raise MemoryOutOfBounds of `pc + n` and never wrap; otherwise the
opcode's instruction with the bytes at `pc + 1` and `pc + 2` as operands is executed, in this order of
checks (R82, R84). -/
def Obligations.FetchPhasesInOrder : Prop :=
  ∀ s : State, s.cfg.opcodeMap.Legal → s.run = true → s.fault = none →
    (0xFF < s.pc.toNat → step s = .next (s.latch (.memoryOutOfBounds s.pc) false))
      ∧ (s.pc.toNat ≤ 0xFF → (∀ n : Mnemonic, s.cfg.opcodeMap.byteOf n ≠ byteAt s 0) →
        step s = .next (s.latch (.unknownInstruction (byteAt s 0)) false))
      ∧ ∀ n : Mnemonic, s.pc.toNat ≤ 0xFF → s.cfg.opcodeMap.byteOf n = byteAt s 0 →
        (0xFF < s.pc.toNat + operandCount (byteAt s 0) →
            step s = .next (s.latch (.memoryOutOfBounds (s.pc + BitVec.ofNat 9 (operandCount (byteAt s 0)))) false))
          ∧ (s.pc.toNat + operandCount (byteAt s 0) ≤ 0xFF →
            fetch s = .ok (assemble n (byteAt s 1) (byteAt s 2))
              ∧ step s = afterInstruction (exec (assemble n (byteAt s 1) (byteAt s 2)) s))

/-- A running machine whose memory holds an instruction's words at `pc` runs exactly that instruction,
wherever it stands, as long as it fits (R50, R60, R84). -/
def Obligations.StepRunsTheInstructionInMemory : Prop :=
  ∀ (s : State) (i : Instr), s.cfg.opcodeMap.Legal → s.run = true → s.fault = none →
    s.pc.toNat + (encode s.cfg.opcodeMap i).length ≤ 256 →
    (∀ k v, (encode s.cfg.opcodeMap i)[k]? = some v → byteAt s k = v) →
      step s = afterInstruction (exec i s)

/-- "A step whose instruction raises a fault in phases 1 to 4 leaves every piece of state exactly as it was
before the step, except that `FAULT` is latched and `RUN` is cleared"; a fault of the interrupt entry
leaves the state the completed instruction left (R88, R175). The second half is the spec's decision D21
(log entry 17); the `pc` of the record is D22 (R169, log entry 22). -/
def Obligations.StepIsAtomicUnderFaults : Prop :=
  ∀ (s t : State) (r : FaultRecord), s.run = true → s.fault = none → step s = .next t → t.fault = some r →
    (r.inEntry = false → t = { s with fault := some r, run := false } ∧ r.pc = s.pc)
      ∧ (r.inEntry = true → ∃ (i : Instr) (u : State), fetch s = .ok i ∧ exec i s = .next u ∧ u.fault = none
        ∧ t = { u with fault := some r, run := false } ∧ r.pc = u.pc)

/-- Every step answers a next state: nothing a program can do ends the model's run without a state. -/
def Obligations.EveryStepAnswersAState : Prop :=
  (∀ s : State, ∃ t, step s = .next t) ∧ ∀ (i : Instr) (s : State), ∃ t, exec i s = .next t

/-! ### Interrupts -/

/-- Phase 6: no entry when no line is both pending and enabled; else the entry of the least such line
(spec/60_exceptions.md R172, R173; the mask's polarity and the priority are the spec's decisions D9 and
D11, log entry 12). -/
def Obligations.LowestDeliverableLineIsTaken : Prop :=
  ∀ s : State,
    ((∀ k : Line, ¬(s.is.getLsbD k.val = true ∧ s.im.getLsbD k.val = true)) → interruptCheck s = .next s)
      ∧ ∀ n : Line, s.is.getLsbD n.val = true → s.im.getLsbD n.val = true →
        (∀ k : Line, k < n → ¬(s.is.getLsbD k.val = true ∧ s.im.getLsbD k.val = true)) →
          interruptCheck s = takeInterrupt n s

/-- The interrupt entry with both guards met: the nine bytes of the frame below the old `SP`, every other
byte as before; `IM_SAVED` the old mask and `IM` zero; the line's pending bit cleared and the others kept;
R0 to R6, `FL` and the rest unchanged; `pc` the vector's byte (R174, R178; the push order is the spec's
decision D13, the vector's place D12, when it is read D29, log entries 12 and 17). -/
def Obligations.EntrySavesTheFrame : Prop :=
  ∀ (n : Line) (s : State), s.pc.toNat ≤ 0xFF → s.cfg.stackFloor.toNat + 9 ≤ s.sp.toNat →
    ∃ t, takeInterrupt n s = .next t
      ∧ t = { s with
          regs := s.regs.set .r7 (s.sp - 9), mem := t.mem, im := 0, imSaved := s.im, is := t.is, pc := t.pc }
      ∧ (t.load (s.sp - 1)).toNat = s.pc.toNat ∧ t.load (s.sp - 2) = s.fl ∧ t.load (s.sp - 3) = s.reg .r0
      ∧ t.load (s.sp - 4) = s.reg .r1 ∧ t.load (s.sp - 5) = s.reg .r2 ∧ t.load (s.sp - 6) = s.reg .r3
      ∧ t.load (s.sp - 7) = s.reg .r4 ∧ t.load (s.sp - 8) = s.reg .r5 ∧ t.load (s.sp - 9) = s.reg .r6
      ∧ (∀ a : Byte, a.toNat < s.sp.toNat - 9 ∨ s.sp.toNat ≤ a.toNat → t.load a = s.load a)
      ∧ (∀ k, k < 8 → t.is.getLsbD k = (s.is.getLsbD k && decide (k ≠ n.val)))
      ∧ t.pc.toNat = (t.load (BitVec.ofNat 8 (0xF8 + n.val))).toNat

/-- The entry's guards, in order: a `pc` that does not fit a byte, then no room for nine bytes. The entry
then has no effect but the latched fault (R175; the spec's decisions D18 and D21, log entries 16 and 17). -/
def Obligations.EntryGuardsInOrder : Prop :=
  ∀ (n : Line) (s : State),
    (0xFF < s.pc.toNat →
        takeInterrupt n s = .next { s with fault := some ⟨.memoryOutOfBounds s.pc, s.pc, true⟩, run := false })
      ∧ (s.pc.toNat ≤ 0xFF → s.sp.toNat < s.cfg.stackFloor.toNat + 9 →
        takeInterrupt n s = .next { s with fault := some ⟨.stackOverflow s.sp, s.pc, true⟩, run := false })

/-- "Entry followed by IRET, with the handler leaving `SP` and the frame bytes alone, restores `x[0..6]`,
`FL`, `pc`, `SP` and `IM` exactly"; `IS` is not restored: the taken bit is clear after the entry and stays
as the handler left it; the bytes stay in memory (R176). `u` is the state in which the handler executes
IRET. The first two premises are the entry's own guards; with `SP` above 0xF4 IRET underflows (the spec's
decision D14, log entry 15). That `IM` comes back from `IM_SAVED` is D10 (log entry 13). -/
def Obligations.EntryThenIretRestores : Prop :=
  ∀ (n : Line) (s t u : State), s.pc.toNat ≤ 0xFF → s.cfg.stackFloor.toNat + 9 ≤ s.sp.toNat →
    s.sp.toNat ≤ 0xF4 → takeInterrupt n s = .next t → u.sp = t.sp → u.imSaved = t.imSaved →
    (∀ a : Byte, t.sp.toNat ≤ a.toNat → a.toNat < s.sp.toNat → u.load a = t.load a) →
      t.is.getLsbD n.val = false
        ∧ ∃ v, exec .iret u = .next v ∧ v.regs = s.regs ∧ v.fl = s.fl ∧ v.pc = s.pc ∧ v.im = s.im
        ∧ v.is = u.is ∧ SameMemory u v

/-- Interrupts never nest: after an entry the mask is zero; and in a state whose mask is zero a step takes
no entry and leaves the mask zero, unless it executes IRET (R177; that the entry clears the mask is the
spec's decision D10, log entry 13). -/
def Obligations.InterruptsNeverNest : Prop :=
  (∀ (n : Line) (s t : State), takeInterrupt n s = .next t → t.fault = s.fault → s.fault = none → t.im = 0)
    ∧ ∀ (s t : State) (i : Instr), s.run = true → s.fault = none → s.im = 0 → fetch s = .ok i → i ≠ .iret →
      step s = .next t → exec i s = .next t ∧ t.im = 0

/-- HLT with a deliverable line and room for the frame: the machine is stopped without a fault at the
vector of the lowest such line, with the whole frame on the stack (the return address is the one after
HLT), the mask saved and cleared, the line's pending bit cleared, and R0 to R6, `FL`, `OUT` and every other
byte of memory as before (R153, R87, R174; the check after HLT is the spec's decision D27, log entry 17; the
priority, the push order and the vector's place are log entry 12). -/
def Obligations.HltStillEntersADeliverableInterrupt : Prop :=
  ∀ (s : State) (rest : List Byte), s.run = true → s.fault = none → s.pc.toNat ≤ 0xFE →
    s.cfg.stackFloor.toNat + 9 ≤ s.sp.toNat → decode s.cfg.opcodeMap s.fetchWindow = .ok (.hlt, rest) →
    s.is &&& s.im ≠ 0 →
      ∃ (n : Line) (t : State), s.is.getLsbD n.val = true ∧ s.im.getLsbD n.val = true
        ∧ (∀ k : Line, k < n → ¬(s.is.getLsbD k.val = true ∧ s.im.getLsbD k.val = true))
        ∧ step s = .next t
        ∧ t = { s with
            regs := s.regs.set .r7 (s.sp - 9), mem := t.mem, run := false, im := 0, imSaved := s.im, is := t.is,
            pc := t.pc }
        ∧ t.pc.toNat = (t.load (BitVec.ofNat 8 (0xF8 + n.val))).toNat
        ∧ (∀ k, k < 8 → t.is.getLsbD k = (s.is.getLsbD k && decide (k ≠ n.val)))
        ∧ (t.load (s.sp - 1)).toNat = s.pc.toNat + 1 ∧ t.load (s.sp - 2) = s.fl ∧ t.load (s.sp - 3) = s.reg .r0
        ∧ t.load (s.sp - 4) = s.reg .r1 ∧ t.load (s.sp - 5) = s.reg .r2 ∧ t.load (s.sp - 6) = s.reg .r3
        ∧ t.load (s.sp - 7) = s.reg .r4 ∧ t.load (s.sp - 8) = s.reg .r5 ∧ t.load (s.sp - 9) = s.reg .r6
        ∧ ∀ a : Byte, a.toNat < s.sp.toNat - 9 ∨ s.sp.toNat ≤ a.toNat → t.load a = s.load a

/-- The pending vector: if a step clears the pending bit of line `k`, then the instruction was executed, `k`
was pending and enabled after it, and the step ended with the entry of that very line; and external
sources set bits and clear none (spec/10_state.md R26). -/
def Obligations.PendingBitsClearedOnlyByTheirEntry : Prop :=
  (∀ (s t : State) (k : Line), step s = .next t → s.is.getLsbD k.val = true → t.is.getLsbD k.val = false →
      ∃ (i : Instr) (u : State), fetch s = .ok i ∧ exec i s = .next u ∧ u.is.getLsbD k.val = true
        ∧ u.im.getLsbD k.val = true ∧ takeInterrupt k u = .next t)
    ∧ ∀ (s : State) (e : EnvEvent), (applyEvent s e).is &&& s.is = s.is

/-! ### Reset, the environment, invariants -/

/-- Reset: R0 to R6 hold 0, R7 holds 0xF4, execution starts at address 0, `IM` and `IM_SAVED` hold
`IM_RESET` and memory is `INITIAL_MEMORY`, whatever these are (spec/10_state.md R35). The values of `FL`,
`IS`, `pc`, `RUN`, `FAULT` and `OUT` are the spec's decisions (log entry 6); `State.reset`'s `IM_RESET`,
`STACK_FLOOR` and memory are log entries 3, 4 and 5. -/
def Obligations.ResetValues : Prop :=
  (∀ (c : Config) (image : Memory) (r : Reg), (State.resetWith c image).reg r = if r = .r7 then 0xF4 else 0)
    ∧ (∀ (c : Config) (image : Memory), State.resetWith c image =
      { cfg := c, regs := (State.resetWith c image).regs, pc := 0, fl := 0, im := c.imReset, is := 0,
        imSaved := c.imReset, run := true, fault := none, mem := image, out := [] })
    ∧ State.reset = State.resetWith ⟨OpcodeMap.standard, 0xFF, 0x00⟩ []

/-- The invariant holds at reset for legal parameters and a canonical memory, `State.reset` among them. -/
def Obligations.InvariantHoldsAtReset : Prop :=
  (∀ (c : Config) (image : Memory), c.Legal → image.wf → (State.resetWith c image).Inv) ∧ State.reset.Inv

/-- Every step keeps the invariant: legal parameters, canonical memory, `pc` at most 0x100, a latched
fault only in a stopped machine and with its `pc`, `IM_SAVED = IM_RESET`, `IM` one of `IM_RESET` and 0. -/
def Obligations.StepKeepsTheInvariant : Prop :=
  ∀ s t : State, s.Inv → step s = .next t → t.Inv

/-- What the environment does between steps keeps the invariant, and a driver's run of any length under
any events keeps it (spec/40_step_cycle.md R91, R92). The events being outside the step is log entry 18. -/
def Obligations.DriverRunKeepsTheInvariant : Prop :=
  (∀ (s : State) (e : EnvEvent), s.Inv → (applyEvent s e).Inv)
    ∧ ∀ (s : State) (events : List (List EnvEvent)), s.Inv → ∃ t, driverRun s events = .next t ∧ t.Inv

/-- Between steps only `IS` and `RUN` change: lines are raised, never cleared, and a stop is never undone
(R91). -/
def Obligations.EnvironmentTouchesOnlyPendingAndRun : Prop :=
  ∀ (s : State) (e : EnvEvent),
    applyEvent s e = { s with is := (applyEvent s e).is, run := (applyEvent s e).run }
      ∧ (∀ b : Byte, e = .raiseLines b → (applyEvent s e).is = s.is ||| b ∧ (applyEvent s e).run = s.run)
      ∧ (e = .stop → (applyEvent s e).is = s.is ∧ (applyEvent s e).run = false)

/-- In every state a launch can reach, from any legal parameters and any initial memory and under any
environment: the mask registers hold only `IM_RESET` or 0, `pc` is at most 0x100, a machine with a latched
fault is stopped and never moves again. -/
def Obligations.ReachableStatesAreSafe : Prop :=
  ∀ (c : Config) (image : Memory) (s : State), c.Legal → image.wf → Reachable c image s →
    s.Inv ∧ s.cfg = c ∧ s.imSaved = c.imReset ∧ (s.im = c.imReset ∨ s.im = 0)
      ∧ (s.fault.isSome → s.runEnd.isSome ∧ step s = .next s)

/-- How a run ends (spec/70_reset_and_hazards.md R196). A step of a running machine ends the run cleanly
exactly when it executed HLT and no fault followed, at the address after HLT when no line is deliverable;
or by a fault of the fetch or the instruction, at the unchanged `pc`; or by a fault of the entry, at the
`pc` that the instruction completed just before left; it goes on otherwise. Between steps an external stop
request ends the run at the next instruction not yet executed, and nothing else there does. The state
after an entry fault is the spec's decision D21, the check after HLT D27 (log entry 17); the events stand
outside the step (log entry 18). -/
def Obligations.WaysARunEnds : Prop :=
  (∀ s t : State, s.run = true → s.fault = none → step s = .next t →
    (t.runEnd = none ↔ t.run = true)
      ∧ (t.runEnd = some .clean ↔ fetch s = .ok .hlt ∧ t.fault = none)
      ∧ (t.runEnd = some .clean → s.is &&& s.im = 0 → t.pc = s.pc + 1)
      ∧ (∀ r, t.runEnd = some (.instructionFault r) → t.pc = s.pc ∧ r.pc = s.pc ∧ r.inEntry = false)
      ∧ ∀ r, t.runEnd = some (.entryFault r) → r.inEntry = true
        ∧ ∃ (i : Instr) (u : State), fetch s = .ok i ∧ exec i s = .next u ∧ u.fault = none
          ∧ u.is &&& u.im ≠ 0 ∧ t.pc = u.pc ∧ r.pc = u.pc)
    ∧ ∀ (s : State) (events : List EnvEvent), s.run = true → s.fault = none →
      ((applyEvents s events).runEnd = some .clean ↔ .stop ∈ events)
        ∧ ((applyEvents s events).runEnd = none ↔ .stop ∉ events)
        ∧ (applyEvents s events).pc = s.pc ∧ (applyEvents s events).fault = none

/-! ### The loader -/

/-- The loader "writes each parsed byte sequentially starting at address 0"; other bytes keep what they
held; a malformed line means no launch (spec/30_encoding.md R70, spec/60_exceptions.md R167). -/
def Obligations.LoaderWritesFromAddressZero : Prop :=
  (∀ (c : Config) (base : Memory) (source : List (List Char)) (vs : List Byte), parseSource source = .ok vs →
      vs.length ≤ 256 → ∃ s, launch c base source = .ok s ∧ s.pc = 0
        ∧ ∀ a : Byte, s.load a = vs.getD a.toNat (base.read a))
    ∧ ∀ (c : Config) (base : Memory) (before after : List (List Char)) (line : List Char) (e : LoadError),
      parseLine line = .error e → ∃ e', launch c base (before ++ line :: after) = .error e'

/-! ### The driver -/

/-- The driver (spec/40_step_cycle.md R92, R81): a run that has reached `RUN = 0` takes no further step; a
stop request before a step ends the run without that step; and while `RUN` is 1 the driver invokes the next
step, however many it has invoked before (no timeout). A run under events `a` and then `b` is the run under
`b` from where `a` led. That an ended run takes no further event either is the model's choice (log entry
18): the run's final state is the one at the boundary where `RUN` was 0 (spec/70_reset_and_hazards.md R196),
while outside it sources may still set `IS` bits, without any other effect (R90). -/
def Obligations.DriverStopsExactlyWhenRunIsZero : Prop :=
  ∀ (s t : State) (a b : List (List EnvEvent)) (es : List EnvEvent), driverRun s a = .next t →
    driverRun s (a ++ b) = driverRun t b
      ∧ (t.run = false → driverRun s (a ++ b) = .next t)
      ∧ (t.run = true → (applyEvents t es).run = false → driverRun s (a ++ es :: b) = .next (applyEvents t es))
      ∧ (t.run = true → (applyEvents t es).run = true → driverRun s (a ++ [es]) = step (applyEvents t es))
end

