-- ==== Sys2Proof/Laws/Decode.lean ====
section
/-! SUPPORT. The decoder and the encoder: table lookup under a legal map, operands, lengths. -/

namespace Sys2Proof

theorem Mnemonic.mem_all (n : Mnemonic) : n ∈ Mnemonic.all := by cases n <;> decide

/-- Under a legal map two mnemonics with the same byte are the same. -/
theorem OpcodeMap.Legal.byteOf_inj {m : OpcodeMap} (h : m.Legal) {n n' : Mnemonic}
    (e : m.byteOf n = m.byteOf n') : n = n' :=
  List.inj_on_of_nodup_map h.1 n.mem_all n'.mem_all e

theorem OpcodeMap.Legal.count {m : OpcodeMap} (h : m.Legal) (n : Mnemonic) :
    operandCount (m.byteOf n) = n.count := h.2.1 n n.mem_all

/-- The lookup answers a mnemonic with that byte. -/
theorem find_byteOf_some {m : OpcodeMap} {op : Byte} {n : Mnemonic}
    (h : Mnemonic.all.find? (fun n => m.byteOf n == op) = some n) : m.byteOf n = op := by
  simpa using List.find?_some h

/-- The lookup answers nothing exactly for the bytes of no mnemonic. -/
theorem find_byteOf_none {m : OpcodeMap} {op : Byte} :
    Mnemonic.all.find? (fun n => m.byteOf n == op) = none ↔ ∀ n, m.byteOf n ≠ op := by
  simp [List.find?_eq_none, Mnemonic.mem_all]

/-- Under a legal map the lookup of a mnemonic's byte answers that mnemonic. -/
theorem OpcodeMap.Legal.find_byteOf {m : OpcodeMap} (h : m.Legal) (n : Mnemonic) :
    Mnemonic.all.find? (fun n' => m.byteOf n' == m.byteOf n) = some n := by
  cases e : Mnemonic.all.find? (fun n' => m.byteOf n' == m.byteOf n) with
  | none => exact absurd rfl (find_byteOf_none.mp e n)
  | some n' => rw [h.byteOf_inj (find_byteOf_some e)]

/-- The descriptor of a mnemonic's byte (R68). -/
theorem OpcodeMap.Legal.decodeOpcode_byteOf {m : OpcodeMap} (h : m.Legal) (n : Mnemonic) :
    decodeOpcode m (m.byteOf n) = .ok ⟨m.byteOf n, n, n.count, n.setsPc, n.aluTag⟩ := by
  rw [decodeOpcode, h.find_byteOf n, ← h.count n]

/-- What the lookup can answer: an unknown byte, or a mnemonic of that byte. -/
theorem decodeOpcode_cases (m : OpcodeMap) (op : Byte) :
    (decodeOpcode m op = .error (.unknownInstruction op) ∧ ∀ n, m.byteOf n ≠ op)
      ∨ ∃ n, m.byteOf n = op ∧ decodeOpcode m op = .ok ⟨op, n, operandCount op, n.setsPc, n.aluTag⟩ := by
  unfold decodeOpcode
  cases e : Mnemonic.all.find? (fun n => m.byteOf n == op) with
  | none => exact .inl ⟨rfl, find_byteOf_none.mp e⟩
  | some n => exact .inr ⟨n, find_byteOf_some e, rfl⟩

theorem Instr.operands_length (i : Instr) : i.operands.length = i.mnemonic.count := by
  cases i <;> rfl

/-- An instruction is its mnemonic assembled with its operand bytes, whatever follows them. -/
theorem assemble_operands (i : Instr) (rest : List Byte) :
    assemble i.mnemonic ((i.operands ++ rest).getD 0 0) ((i.operands ++ rest).getD 1 0) = i := by
  cases i <;> rfl

theorem assemble_mnemonic (n : Mnemonic) (a b : Byte) : (assemble n a b).mnemonic = n := by
  cases n <;> rfl

/-- The operand bytes of an assembled instruction are the first `count` of those given. -/
theorem assemble_operands_eq (n : Mnemonic) (a b : Byte) : (assemble n a b).operands = [a, b].take n.count := by
  cases n <;> rfl

theorem operandCount_eq (op : Byte) : operandCount op = op.toNat / 64 := by
  have : op.toNat < 256 := op.isLt
  simp only [operandCount, BitVec.extractLsb'_toNat, Nat.shiftRight_eq_div_pow]
  omega

end Sys2Proof
end

