-- ==== Sys2Proof/Laws/Memory.lean ====
section
/-! SUPPORT. Memory: read after write, the other bytes, and the canonical form. -/

namespace Sys2Proof.Machine

theorem Memory.lookup_filter_self (m : Memory) (a : Nat) :
    Memory.lookup (m.filter (fun c => c.1 ≠ a)) a = unwrittenByte := by
  induction m with
  | nil => rfl
  | cons c rest ih =>
    obtain ⟨k, w⟩ := c
    by_cases h : k = a
    · simpa [h] using ih
    · simpa [h, Memory.lookup] using ih

theorem Memory.lookup_filter_of_ne (m : Memory) {a b : Nat} (h : b ≠ a) :
    Memory.lookup (m.filter (fun c => c.1 ≠ a)) b = m.lookup b := by
  induction m with
  | nil => rfl
  | cons c rest ih =>
    obtain ⟨k, w⟩ := c
    by_cases hk : k = a
    · have hb : k ≠ b := fun e => h (e.symm.trans hk)
      simpa [hk, Memory.lookup, Ne.symm h] using ih
    · by_cases hb : k = b
      · subst hb
        simp [hk, Memory.lookup]
      · simpa [hk, Memory.lookup, hb] using ih

theorem Memory.lookup_insertCell_self (m : Memory) (a : Nat) (v : Byte) (h : ∀ c ∈ m, c.1 ≠ a) :
    Memory.lookup (Memory.insertCell a v m) a = v := by
  induction m with
  | nil => simp [Memory.insertCell, Memory.lookup]
  | cons c rest ih =>
    obtain ⟨k, w⟩ := c
    have hk : k ≠ a := h (k, w) (by simp)
    have ih := ih fun c hc => h c (List.mem_cons_of_mem _ hc)
    unfold Memory.insertCell
    split
    · simp [Memory.lookup]
    · simp [Memory.lookup, hk, ih]

theorem Memory.lookup_insertCell_of_ne (m : Memory) {a b : Nat} (v : Byte) (h : b ≠ a) :
    Memory.lookup (Memory.insertCell a v m) b = m.lookup b := by
  induction m with
  | nil => simp [Memory.insertCell, Memory.lookup, Ne.symm h]
  | cons c rest ih =>
    obtain ⟨k, w⟩ := c
    unfold Memory.insertCell
    split
    · simp [Memory.lookup, Ne.symm h]
    · simp [Memory.lookup, ih]

/-- A read after a write to the same address gives the value written (R41). -/
theorem Memory.read_write_self (m : Memory) (a v : Byte) : (m.write a v).read a = v := by
  unfold Memory.write Memory.read
  split
  · next h => rw [Memory.lookup_filter_self, h]
  · exact Memory.lookup_insertCell_self _ _ _ (by simp)

/-- A write changes no other byte (R41). -/
theorem Memory.read_write_of_ne (m : Memory) {a b : Byte} (v : Byte) (h : b ≠ a) :
    (m.write a v).read b = m.read b := by
  have hn : b.toNat ≠ a.toNat := fun e => h (BitVec.eq_of_toNat_eq e)
  unfold Memory.write Memory.read
  split
  · exact Memory.lookup_filter_of_ne m hn
  · rw [Memory.lookup_insertCell_of_ne _ _ hn, Memory.lookup_filter_of_ne m hn]

/-- Both at once. -/
theorem Memory.read_write (m : Memory) (a v b : Byte) :
    (m.write a v).read b = if b = a then v else m.read b := by
  split
  · next h => rw [h, Memory.read_write_self]
  · next h => exact Memory.read_write_of_ne m v h

theorem Memory.mem_insertCell {m : Memory} {a : Nat} {v : Byte} {c : Host.Cell}
    (h : c ∈ Memory.insertCell a v m) : c = (a, v) ∨ c ∈ m := by
  induction m with
  | nil => simpa [Memory.insertCell] using h
  | cons d rest ih =>
    unfold Memory.insertCell at h
    split at h
    · simpa using h
    · rcases List.mem_cons.mp h with h | h
      · exact .inr (by simp [h])
      · exact (ih h).imp id (List.mem_cons_of_mem _)

theorem Memory.pairwise_insertCell {m : Memory} {a : Nat} {v : Byte}
    (hs : m.Pairwise (fun p q => p.1 < q.1)) (hne : ∀ c ∈ m, c.1 ≠ a) :
    (Memory.insertCell a v m).Pairwise (fun p q => p.1 < q.1) := by
  induction m with
  | nil => simp [Memory.insertCell]
  | cons c rest ih =>
    obtain ⟨k, w⟩ := c
    have hk : k ≠ a := hne (k, w) (by simp)
    rw [List.pairwise_cons] at hs
    unfold Memory.insertCell
    split
    · next hlt =>
      refine List.pairwise_cons.mpr ⟨fun d hd => ?_, List.pairwise_cons.mpr hs⟩
      rcases List.mem_cons.mp hd with hd | hd
      · simpa [hd] using hlt
      · exact lt_trans hlt (hs.1 d hd)
    · next hlt =>
      refine List.pairwise_cons.mpr ⟨fun d hd => ?_, ih hs.2 fun c hc => hne c (List.mem_cons_of_mem _ hc)⟩
      rcases Memory.mem_insertCell hd with hd | hd
      · simp only [hd]; omega
      · exact hs.1 d hd

/-- A write keeps the canonical form. -/
theorem Memory.write_wf {m : Memory} (h : m.wf) (a v : Byte) : (m.write a v).wf := by
  have hf : (m.filter (fun c => c.1 ≠ a.toNat)).Pairwise (fun p q => p.1 < q.1) := h.1.filter _
  have hc : ∀ c ∈ m.filter (fun c => c.1 ≠ a.toNat), c.1 < 256 ∧ c.2 ≠ unwrittenByte :=
    fun c hc => h.2 c (List.mem_filter.mp hc).1
  unfold Memory.write
  split
  · exact ⟨hf, hc⟩
  · next hv =>
    refine ⟨Memory.pairwise_insertCell hf (by simp), fun c hm => ?_⟩
    rcases Memory.mem_insertCell hm with rfl | hm
    · exact ⟨a.isLt, hv⟩
    · exact hc c hm

theorem Memory.writeBytes_wf {m : Memory} (h : m.wf) (a : Nat) (vs : List Byte) :
    (m.writeBytes a vs).wf := by
  induction vs generalizing m a with
  | nil => exact h
  | cons v rest ih =>
    unfold Memory.writeBytes
    split
    · exact ih (Memory.write_wf h _ _) _
    · exact h

theorem Memory.nil_wf : Memory.wf [] := by decide

/-- What memory holds after a sequence of bytes that fits is written. -/
theorem Memory.read_writeBytes (m : Memory) (a : Nat) (vs : List Byte) (h : a + vs.length ≤ 256) (b : Byte) :
    (m.writeBytes a vs).read b = if a ≤ b.toNat then vs.getD (b.toNat - a) (m.read b) else m.read b := by
  induction vs generalizing m a with
  | nil => simp [Memory.writeBytes]
  | cons v r ih =>
    simp only [List.length_cons] at h
    rw [Memory.writeBytes, if_pos (by omega), ih _ _ (by omega), Memory.read_write]
    have hb : b = BitVec.ofNat 8 a ↔ b.toNat = a := by
      constructor
      · rintro rfl
        simp
        omega
      · rintro rfl
        simp
    simp only [hb]
    rcases Nat.lt_trichotomy b.toNat a with h | h | h
    · rw [if_neg (by omega), if_neg (by omega), if_neg (by omega)]
    · rw [if_neg (by omega), if_pos h, if_pos (by omega), h]
      simp
    · rw [if_pos (by omega), if_neg (by omega), if_pos (by omega)]
      have : b.toNat - a = (b.toNat - (a + 1)) + 1 := by omega
      rw [this]
      simp

end Sys2Proof.Machine
end

