-- ==== Sys2Proof/Laws/State.lean ====
section
/-! SUPPORT. What each update of the state does to each field: one equation a field, true by `rfl`. -/

namespace Sys2Proof.Machine

variable (s : State)

/-! `State.setReg` -/

@[simp] theorem State.setReg_cfg (r : Reg) (v : Byte) : (s.setReg r v).cfg = s.cfg := rfl
@[simp] theorem State.setReg_regs (r : Reg) (v : Byte) : (s.setReg r v).regs = s.regs.set r v := rfl
@[simp] theorem State.setReg_pc (r : Reg) (v : Byte) : (s.setReg r v).pc = s.pc := rfl
@[simp] theorem State.setReg_fl (r : Reg) (v : Byte) : (s.setReg r v).fl = s.fl := rfl
@[simp] theorem State.setReg_im (r : Reg) (v : Byte) : (s.setReg r v).im = s.im := rfl
@[simp] theorem State.setReg_is (r : Reg) (v : Byte) : (s.setReg r v).is = s.is := rfl
@[simp] theorem State.setReg_imSaved (r : Reg) (v : Byte) : (s.setReg r v).imSaved = s.imSaved := rfl
@[simp] theorem State.setReg_run (r : Reg) (v : Byte) : (s.setReg r v).run = s.run := rfl
@[simp] theorem State.setReg_fault (r : Reg) (v : Byte) : (s.setReg r v).fault = s.fault := rfl
@[simp] theorem State.setReg_mem (r : Reg) (v : Byte) : (s.setReg r v).mem = s.mem := rfl
@[simp] theorem State.setReg_out (r : Reg) (v : Byte) : (s.setReg r v).out = s.out := rfl

/-! `State.store` -/

@[simp] theorem State.store_cfg (a v : Byte) : (s.store a v).cfg = s.cfg := rfl
@[simp] theorem State.store_regs (a v : Byte) : (s.store a v).regs = s.regs := rfl
@[simp] theorem State.store_pc (a v : Byte) : (s.store a v).pc = s.pc := rfl
@[simp] theorem State.store_fl (a v : Byte) : (s.store a v).fl = s.fl := rfl
@[simp] theorem State.store_im (a v : Byte) : (s.store a v).im = s.im := rfl
@[simp] theorem State.store_is (a v : Byte) : (s.store a v).is = s.is := rfl
@[simp] theorem State.store_imSaved (a v : Byte) : (s.store a v).imSaved = s.imSaved := rfl
@[simp] theorem State.store_run (a v : Byte) : (s.store a v).run = s.run := rfl
@[simp] theorem State.store_fault (a v : Byte) : (s.store a v).fault = s.fault := rfl
@[simp] theorem State.store_mem (a v : Byte) : (s.store a v).mem = s.mem.write a v := rfl
@[simp] theorem State.store_out (a v : Byte) : (s.store a v).out = s.out := rfl

/-! `State.emit` -/

@[simp] theorem State.emit_cfg (mode : OutMode) (v : Byte) : (s.emit mode v).cfg = s.cfg := rfl
@[simp] theorem State.emit_regs (mode : OutMode) (v : Byte) : (s.emit mode v).regs = s.regs := rfl
@[simp] theorem State.emit_pc (mode : OutMode) (v : Byte) : (s.emit mode v).pc = s.pc := rfl
@[simp] theorem State.emit_fl (mode : OutMode) (v : Byte) : (s.emit mode v).fl = s.fl := rfl
@[simp] theorem State.emit_im (mode : OutMode) (v : Byte) : (s.emit mode v).im = s.im := rfl
@[simp] theorem State.emit_is (mode : OutMode) (v : Byte) : (s.emit mode v).is = s.is := rfl
@[simp] theorem State.emit_imSaved (mode : OutMode) (v : Byte) : (s.emit mode v).imSaved = s.imSaved := rfl
@[simp] theorem State.emit_run (mode : OutMode) (v : Byte) : (s.emit mode v).run = s.run := rfl
@[simp] theorem State.emit_fault (mode : OutMode) (v : Byte) : (s.emit mode v).fault = s.fault := rfl
@[simp] theorem State.emit_mem (mode : OutMode) (v : Byte) : (s.emit mode v).mem = s.mem := rfl
@[simp] theorem State.emit_out (mode : OutMode) (v : Byte) : (s.emit mode v).out = s.out ++ [⟨mode, v⟩] := rfl

/-! `State.jump` -/

@[simp] theorem State.jump_cfg (v : Byte) : (s.jump v).cfg = s.cfg := rfl
@[simp] theorem State.jump_regs (v : Byte) : (s.jump v).regs = s.regs := rfl
@[simp] theorem State.jump_pc (v : Byte) : (s.jump v).pc = zext9 v := rfl
@[simp] theorem State.jump_fl (v : Byte) : (s.jump v).fl = s.fl := rfl
@[simp] theorem State.jump_im (v : Byte) : (s.jump v).im = s.im := rfl
@[simp] theorem State.jump_is (v : Byte) : (s.jump v).is = s.is := rfl
@[simp] theorem State.jump_imSaved (v : Byte) : (s.jump v).imSaved = s.imSaved := rfl
@[simp] theorem State.jump_run (v : Byte) : (s.jump v).run = s.run := rfl
@[simp] theorem State.jump_fault (v : Byte) : (s.jump v).fault = s.fault := rfl
@[simp] theorem State.jump_mem (v : Byte) : (s.jump v).mem = s.mem := rfl
@[simp] theorem State.jump_out (v : Byte) : (s.jump v).out = s.out := rfl

/-! `State.advance` -/

@[simp] theorem State.advance_cfg (n : Nat) : (s.advance n).cfg = s.cfg := rfl
@[simp] theorem State.advance_regs (n : Nat) : (s.advance n).regs = s.regs := rfl
@[simp] theorem State.advance_pc (n : Nat) : (s.advance n).pc = s.pc + BitVec.ofNat 9 (1 + n) := rfl
@[simp] theorem State.advance_fl (n : Nat) : (s.advance n).fl = s.fl := rfl
@[simp] theorem State.advance_im (n : Nat) : (s.advance n).im = s.im := rfl
@[simp] theorem State.advance_is (n : Nat) : (s.advance n).is = s.is := rfl
@[simp] theorem State.advance_imSaved (n : Nat) : (s.advance n).imSaved = s.imSaved := rfl
@[simp] theorem State.advance_run (n : Nat) : (s.advance n).run = s.run := rfl
@[simp] theorem State.advance_fault (n : Nat) : (s.advance n).fault = s.fault := rfl
@[simp] theorem State.advance_mem (n : Nat) : (s.advance n).mem = s.mem := rfl
@[simp] theorem State.advance_out (n : Nat) : (s.advance n).out = s.out := rfl

/-! `State.latch` -/

@[simp] theorem State.latch_cfg (f : Fault) (e : Bool) : (s.latch f e).cfg = s.cfg := rfl
@[simp] theorem State.latch_regs (f : Fault) (e : Bool) : (s.latch f e).regs = s.regs := rfl
@[simp] theorem State.latch_pc (f : Fault) (e : Bool) : (s.latch f e).pc = s.pc := rfl
@[simp] theorem State.latch_fl (f : Fault) (e : Bool) : (s.latch f e).fl = s.fl := rfl
@[simp] theorem State.latch_im (f : Fault) (e : Bool) : (s.latch f e).im = s.im := rfl
@[simp] theorem State.latch_is (f : Fault) (e : Bool) : (s.latch f e).is = s.is := rfl
@[simp] theorem State.latch_imSaved (f : Fault) (e : Bool) : (s.latch f e).imSaved = s.imSaved := rfl
@[simp] theorem State.latch_run (f : Fault) (e : Bool) : (s.latch f e).run = false := rfl
@[simp] theorem State.latch_fault (f : Fault) (e : Bool) : (s.latch f e).fault = some ⟨f, s.pc, e⟩ := rfl
@[simp] theorem State.latch_mem (f : Fault) (e : Bool) : (s.latch f e).mem = s.mem := rfl
@[simp] theorem State.latch_out (f : Fault) (e : Bool) : (s.latch f e).out = s.out := rfl

/-! `State.decSp` -/

@[simp] theorem State.decSp_cfg : (s.decSp).cfg = s.cfg := rfl
@[simp] theorem State.decSp_regs : (s.decSp).regs = s.regs.set .r7 (s.sp - 1) := rfl
@[simp] theorem State.decSp_pc : (s.decSp).pc = s.pc := rfl
@[simp] theorem State.decSp_fl : (s.decSp).fl = s.fl := rfl
@[simp] theorem State.decSp_im : (s.decSp).im = s.im := rfl
@[simp] theorem State.decSp_is : (s.decSp).is = s.is := rfl
@[simp] theorem State.decSp_imSaved : (s.decSp).imSaved = s.imSaved := rfl
@[simp] theorem State.decSp_run : (s.decSp).run = s.run := rfl
@[simp] theorem State.decSp_fault : (s.decSp).fault = s.fault := rfl
@[simp] theorem State.decSp_mem : (s.decSp).mem = s.mem := rfl
@[simp] theorem State.decSp_out : (s.decSp).out = s.out := rfl

/-! `State.incSp` -/

@[simp] theorem State.incSp_cfg : (s.incSp).cfg = s.cfg := rfl
@[simp] theorem State.incSp_regs : (s.incSp).regs = s.regs.set .r7 (s.sp + 1) := rfl
@[simp] theorem State.incSp_pc : (s.incSp).pc = s.pc := rfl
@[simp] theorem State.incSp_fl : (s.incSp).fl = s.fl := rfl
@[simp] theorem State.incSp_im : (s.incSp).im = s.im := rfl
@[simp] theorem State.incSp_is : (s.incSp).is = s.is := rfl
@[simp] theorem State.incSp_imSaved : (s.incSp).imSaved = s.imSaved := rfl
@[simp] theorem State.incSp_run : (s.incSp).run = s.run := rfl
@[simp] theorem State.incSp_fault : (s.incSp).fault = s.fault := rfl
@[simp] theorem State.incSp_mem : (s.incSp).mem = s.mem := rfl
@[simp] theorem State.incSp_out : (s.incSp).out = s.out := rfl

/-! `State.push` -/

@[simp] theorem State.push_cfg (v : Byte) : (s.push v).cfg = s.cfg := rfl
@[simp] theorem State.push_regs (v : Byte) : (s.push v).regs = s.regs.set .r7 (s.sp - 1) := rfl
@[simp] theorem State.push_pc (v : Byte) : (s.push v).pc = s.pc := rfl
@[simp] theorem State.push_fl (v : Byte) : (s.push v).fl = s.fl := rfl
@[simp] theorem State.push_im (v : Byte) : (s.push v).im = s.im := rfl
@[simp] theorem State.push_is (v : Byte) : (s.push v).is = s.is := rfl
@[simp] theorem State.push_imSaved (v : Byte) : (s.push v).imSaved = s.imSaved := rfl
@[simp] theorem State.push_run (v : Byte) : (s.push v).run = s.run := rfl
@[simp] theorem State.push_fault (v : Byte) : (s.push v).fault = s.fault := rfl
@[simp] theorem State.push_mem (v : Byte) : (s.push v).mem = s.mem.write (s.sp - 1) v := rfl
@[simp] theorem State.push_out (v : Byte) : (s.push v).out = s.out := rfl

/-! `State.popReg` -/

@[simp] theorem State.popReg_cfg (r : Reg) : (s.popReg r).cfg = s.cfg := rfl
@[simp] theorem State.popReg_regs (r : Reg) : (s.popReg r).regs = (s.regs.set r s.top).set .r7 ((s.setReg r s.top).sp + 1) := rfl
@[simp] theorem State.popReg_pc (r : Reg) : (s.popReg r).pc = s.pc := rfl
@[simp] theorem State.popReg_fl (r : Reg) : (s.popReg r).fl = s.fl := rfl
@[simp] theorem State.popReg_im (r : Reg) : (s.popReg r).im = s.im := rfl
@[simp] theorem State.popReg_is (r : Reg) : (s.popReg r).is = s.is := rfl
@[simp] theorem State.popReg_imSaved (r : Reg) : (s.popReg r).imSaved = s.imSaved := rfl
@[simp] theorem State.popReg_run (r : Reg) : (s.popReg r).run = s.run := rfl
@[simp] theorem State.popReg_fault (r : Reg) : (s.popReg r).fault = s.fault := rfl
@[simp] theorem State.popReg_mem (r : Reg) : (s.popReg r).mem = s.mem := rfl
@[simp] theorem State.popReg_out (r : Reg) : (s.popReg r).out = s.out := rfl

/-! `State.popFlags` -/

@[simp] theorem State.popFlags_cfg : (s.popFlags).cfg = s.cfg := rfl
@[simp] theorem State.popFlags_regs : (s.popFlags).regs = s.regs.set .r7 (s.sp + 1) := rfl
@[simp] theorem State.popFlags_pc : (s.popFlags).pc = s.pc := rfl
@[simp] theorem State.popFlags_fl : (s.popFlags).fl = s.top := rfl
@[simp] theorem State.popFlags_im : (s.popFlags).im = s.im := rfl
@[simp] theorem State.popFlags_is : (s.popFlags).is = s.is := rfl
@[simp] theorem State.popFlags_imSaved : (s.popFlags).imSaved = s.imSaved := rfl
@[simp] theorem State.popFlags_run : (s.popFlags).run = s.run := rfl
@[simp] theorem State.popFlags_fault : (s.popFlags).fault = s.fault := rfl
@[simp] theorem State.popFlags_mem : (s.popFlags).mem = s.mem := rfl
@[simp] theorem State.popFlags_out : (s.popFlags).out = s.out := rfl

/-! `State.popPc` -/

@[simp] theorem State.popPc_cfg : (s.popPc).cfg = s.cfg := rfl
@[simp] theorem State.popPc_regs : (s.popPc).regs = s.regs.set .r7 (s.sp + 1) := rfl
@[simp] theorem State.popPc_pc : (s.popPc).pc = zext9 s.top := rfl
@[simp] theorem State.popPc_fl : (s.popPc).fl = s.fl := rfl
@[simp] theorem State.popPc_im : (s.popPc).im = s.im := rfl
@[simp] theorem State.popPc_is : (s.popPc).is = s.is := rfl
@[simp] theorem State.popPc_imSaved : (s.popPc).imSaved = s.imSaved := rfl
@[simp] theorem State.popPc_run : (s.popPc).run = s.run := rfl
@[simp] theorem State.popPc_fault : (s.popPc).fault = s.fault := rfl
@[simp] theorem State.popPc_mem : (s.popPc).mem = s.mem := rfl
@[simp] theorem State.popPc_out : (s.popPc).out = s.out := rfl

/-! `State.placeAtPc` -/

@[simp] theorem State.placeAtPc_cfg (vs : List Byte) : (s.placeAtPc vs).cfg = s.cfg := rfl
@[simp] theorem State.placeAtPc_regs (vs : List Byte) : (s.placeAtPc vs).regs = s.regs := rfl
@[simp] theorem State.placeAtPc_pc (vs : List Byte) : (s.placeAtPc vs).pc = s.pc := rfl
@[simp] theorem State.placeAtPc_fl (vs : List Byte) : (s.placeAtPc vs).fl = s.fl := rfl
@[simp] theorem State.placeAtPc_im (vs : List Byte) : (s.placeAtPc vs).im = s.im := rfl
@[simp] theorem State.placeAtPc_is (vs : List Byte) : (s.placeAtPc vs).is = s.is := rfl
@[simp] theorem State.placeAtPc_imSaved (vs : List Byte) : (s.placeAtPc vs).imSaved = s.imSaved := rfl
@[simp] theorem State.placeAtPc_run (vs : List Byte) : (s.placeAtPc vs).run = s.run := rfl
@[simp] theorem State.placeAtPc_fault (vs : List Byte) : (s.placeAtPc vs).fault = s.fault := rfl
@[simp] theorem State.placeAtPc_mem (vs : List Byte) : (s.placeAtPc vs).mem = s.mem.writeBytes s.pc.toNat vs := rfl
@[simp] theorem State.placeAtPc_out (vs : List Byte) : (s.placeAtPc vs).out = s.out := rfl

/-! `State.writeBack` changes `regs` and `fl` only. -/

@[simp] theorem State.writeBack_cfg (r : Reg) (o : AluOut) : (s.writeBack r o).cfg = s.cfg := rfl
@[simp] theorem State.writeBack_pc (r : Reg) (o : AluOut) : (s.writeBack r o).pc = s.pc := rfl
@[simp] theorem State.writeBack_im (r : Reg) (o : AluOut) : (s.writeBack r o).im = s.im := rfl
@[simp] theorem State.writeBack_is (r : Reg) (o : AluOut) : (s.writeBack r o).is = s.is := rfl
@[simp] theorem State.writeBack_imSaved (r : Reg) (o : AluOut) : (s.writeBack r o).imSaved = s.imSaved := rfl
@[simp] theorem State.writeBack_run (r : Reg) (o : AluOut) : (s.writeBack r o).run = s.run := rfl
@[simp] theorem State.writeBack_fault (r : Reg) (o : AluOut) : (s.writeBack r o).fault = s.fault := rfl
@[simp] theorem State.writeBack_mem (r : Reg) (o : AluOut) : (s.writeBack r o).mem = s.mem := rfl
@[simp] theorem State.writeBack_out (r : Reg) (o : AluOut) : (s.writeBack r o).out = s.out := rfl

end Sys2Proof.Machine
end

