-- ==== Sys2Proof/Laws/Ops.lean ====
section
/-! SUPPORT. What each shared operation can do: registers, operands, the ALU, the stack, faults, the
interrupt entry and return. Later proofs cite these and do not unfold the operations. -/

namespace Sys2Proof.Machine

/-! Registers -/

@[simp] theorem RegFile.get_set (f : RegFile) (r q : Reg) (v : Byte) :
    (f.set r v).get q = if q = r then v else f.get q := by
  cases r <;> cases q <;> rfl

@[simp] theorem RegFile.set_set (f : RegFile) (r : Reg) (v w : Byte) : (f.set r v).set r w = f.set r w := by
  cases r <;> rfl

theorem RegFile.ext_get {f g : RegFile} (h : ∀ r, f.get r = g.get r) : f = g := by
  cases f
  cases g
  simp only [RegFile.mk.injEq]
  exact ⟨h .r0, h .r1, h .r2, h .r3, h .r4, h .r5, h .r6, h .r7⟩

/-- Reading a register of any state is reading its register file: the field lemmas then apply. -/
theorem State.reg_eq (s : State) (r : Reg) : s.reg r = s.regs.get r := rfl

theorem State.sp_eq (s : State) : s.sp = s.regs.get .r7 := rfl

/-- Reading a byte of any state is reading its memory. -/
theorem State.load_eq (s : State) (a : Byte) : s.load a = s.mem.read a := rfl

@[simp] theorem State.load_store (s : State) (a v b : Byte) :
    (s.store a v).load b = if b = a then v else s.load b := Memory.read_write _ _ _ _

@[simp] theorem State.sp_decSp (s : State) : s.decSp.sp = s.sp - 1 := rfl

@[simp] theorem State.sp_incSp (s : State) : s.incSp.sp = s.sp + 1 := rfl

/-! Operand bytes -/

@[simp] theorem Reg.ofByte_toByte (r : Reg) : Reg.ofByte r.toByte = some r := by cases r <;> rfl

theorem Reg.ofByte_eq_none {v : Byte} : Reg.ofByte v = none ↔ 7 < v.toNat := by
  unfold Reg.ofByte
  generalize v.toNat = n
  split <;> simp only [reduceCtorEq, false_iff, true_iff, imp_false] at * <;> omega

theorem Reg.eq_toByte {v : Byte} {r : Reg} (h : Reg.ofByte v = some r) : v = r.toByte := by
  apply BitVec.eq_of_toNat_eq
  unfold Reg.ofByte at h
  split at h <;> simp_all <;> subst h <;> rfl

@[simp] theorem withReg_toByte (r : Reg) (s : State) (body : Reg → Result) :
    withReg r.toByte s body = body r := by
  simp [withReg]

@[simp] theorem withRegs_toByte (r q : Reg) (s : State) (body : Reg → Reg → Result) :
    withRegs r.toByte q.toByte s body = body r q := by
  simp [withRegs]

theorem withReg_bad {a : Byte} (h : 7 < a.toNat) (s : State) (body : Reg → Result) :
    withReg a s body = raise (.invalidOperand a) s := by
  simp [withReg, Reg.ofByte_eq_none.mpr h]

/-- Every operand byte selects a register or is above 7. -/
theorem byte_cases (v : Byte) : (∃ r : Reg, v = r.toByte) ∨ 7 < v.toNat := by
  cases h : Reg.ofByte v with
  | none => exact .inr (Reg.ofByte_eq_none.mp h)
  | some r => exact .inl ⟨r, Reg.eq_toByte h⟩

/-- What a form with one register operand can answer. -/
theorem withReg_cases {a : Byte} {s t : State} {body : Reg → Result} (h : withReg a s body = .next t) :
    (∃ r, Reg.ofByte a = some r ∧ body r = .next t) ∨ t = s.latch (.invalidOperand a) false := by
  unfold withReg at h
  cases e : Reg.ofByte a with
  | none => simp only [e, raise, Host.Outcome.next.injEq] at h; exact .inr h.symm
  | some r => simp only [e] at h; exact .inl ⟨r, rfl, h⟩

/-- What a form with two register operands can answer. -/
theorem withRegs_cases {a b : Byte} {s t : State} {body : Reg → Reg → Result}
    (h : withRegs a b s body = .next t) :
    (∃ r q, Reg.ofByte a = some r ∧ Reg.ofByte b = some q ∧ body r q = .next t)
      ∨ ∃ v, t = s.latch (.invalidOperand v) false := by
  rcases withReg_cases h with ⟨r, hr, h⟩ | h
  · rcases withReg_cases h with ⟨q, hq, h⟩ | h
    · exact .inl ⟨r, q, hr, hq, h⟩
    · exact .inr ⟨b, h⟩
  · exact .inr ⟨a, h⟩

/-! Jumps, output -/

theorem jumpWhen_cases {c : Bool} {a : Byte} {s t : State} (h : jumpWhen c a s = .next t) :
    (∃ r, Reg.ofByte a = some r ∧ t = s.jump (s.reg r)) ∨ t = s.advance 1
      ∨ t = s.latch (.invalidOperand a) false := by
  rcases withReg_cases h with ⟨r, hr, h⟩ | h
  · simp only [Host.Outcome.next.injEq] at h
    subst h
    cases c
    · exact .inr (.inl rfl)
    · exact .inl ⟨r, hr, rfl⟩
  · exact .inr (.inr h)

theorem printReg_cases {mode : OutMode} {a : Byte} {s t : State} (h : printReg mode a s = .next t) :
    (∃ r, Reg.ofByte a = some r ∧ t = (s.emit mode (s.reg r)).advance 1)
      ∨ t = s.latch (.invalidOperand a) false := by
  rcases withReg_cases h with ⟨r, hr, h⟩ | h
  · simp only [Host.Outcome.next.injEq] at h
    exact .inl ⟨r, hr, h.symm⟩
  · exact .inr h

/-! The ALU -/

/-- An ALU operation other than CMP that answers has a result and no flag effect (R124). -/
theorem aluCompute_result {op : AluOp} {a b : Byte} {o : AluOut} (hop : op ≠ .cmp)
    (h : aluCompute op a b = .ok o) : ∃ v, o = ⟨some v, none⟩ := by
  cases op <;> simp_all [aluCompute, aluResult] <;> first | exact ⟨_, h.symm⟩ | skip
  all_goals split at h <;> simp at h; exact ⟨_, h.symm⟩

/-- The one fault of the ALU. -/
theorem aluCompute_error {op : AluOp} {a b : Byte} {f : Fault} (h : aluCompute op a b = .error f) :
    f = .divisionByZero ∧ b.toNat = 0 ∧ (op = .div ∨ op = .mod) := by
  cases op <;> simp [aluCompute, aluResult] at h <;> split at h <;> simp_all

/-- What an ALU instruction other than CMP can answer. -/
theorem aluFinish_cases {op : AluOp} {a b : Byte} {ra : Reg} {n : Nat} {s t : State} (hop : op ≠ .cmp)
    (h : aluFinish ra n s (aluCompute op a b) = .next t) :
    (∃ v, t = (s.setReg ra v).advance n) ∨ t = s.latch .divisionByZero false := by
  cases e : aluCompute op a b with
  | error f =>
    simp only [e, aluFinish, raise, Host.Outcome.next.injEq] at h
    exact .inr (by rw [← h, (aluCompute_error e).1])
  | ok o =>
    obtain ⟨v, rfl⟩ := aluCompute_result hop e
    simp only [e, aluFinish, Host.Outcome.next.injEq] at h
    exact .inl ⟨v, h.symm⟩

theorem aluTwo_cases {op : AluOp} {a b : Byte} {s t : State} (hop : op ≠ .cmp)
    (h : aluTwo op a b s = .next t) :
    (∃ ra v, Reg.ofByte a = some ra ∧ t = (s.setReg ra v).advance 2) ∨ ∃ f, t = s.latch f false := by
  rcases withRegs_cases h with ⟨r, q, hr, -, h⟩ | ⟨v, h⟩
  · rcases aluFinish_cases hop h with ⟨v, h⟩ | h
    · exact .inl ⟨r, v, hr, h⟩
    · exact .inr ⟨_, h⟩
  · exact .inr ⟨_, h⟩

theorem aluOne_cases {op : AluOp} {a : Byte} {s t : State} (hop : op ≠ .cmp) (h : aluOne op a s = .next t) :
    (∃ ra v, Reg.ofByte a = some ra ∧ t = (s.setReg ra v).advance 1) ∨ ∃ f, t = s.latch f false := by
  rcases withReg_cases h with ⟨r, hr, h⟩ | h
  · rcases aluFinish_cases hop h with ⟨v, h⟩ | h
    · exact .inl ⟨r, v, hr, h⟩
    · exact .inr ⟨_, h⟩
  · exact .inr ⟨_, h⟩

theorem cmp_cases {a b : Byte} {s t : State} (h : aluTwo .cmp a b s = .next t) :
    (∃ v, t = { s with fl := v }.advance 2) ∨ ∃ f, t = s.latch f false := by
  rcases withRegs_cases h with ⟨r, q, -, -, h⟩ | ⟨v, h⟩
  · simp only [aluCompute, aluFinish, Host.Outcome.next.injEq] at h
    exact .inl ⟨_, h.symm⟩
  · exact .inr ⟨_, h⟩

/-! The stack -/

@[simp] theorem State.sp_push (s : State) (v : Byte) : (s.push v).sp = s.sp - 1 := rfl

@[simp] theorem State.load_push (s : State) (v b : Byte) :
    (s.push v).load b = if b = s.sp - 1 then v else s.load b := Memory.read_write _ _ _ _

/-- Pushing a list changes `R7` and memory only. -/
theorem State.pushAll_eq (vs : List Byte) (s : State) :
    s.pushAll vs = { s with
      regs := s.regs.set .r7 (s.sp - BitVec.ofNat 8 vs.length), mem := (s.pushAll vs).mem } := by
  induction vs generalizing s with
  | nil =>
    have : s.regs = s.regs.set .r7 (s.sp - 0) := by
      apply RegFile.ext_get
      intro r
      simp only [RegFile.get_set]
      split
      · next h => subst h; simp [State.sp, State.reg]
      · rfl
    conv_lhs => rw [State.pushAll, List.foldl_nil]
    cases s
    simp only [State.mk.injEq, true_and, and_true]
    exact ⟨this, rfl⟩
  | cons v rest ih =>
    have e : s.pushAll (v :: rest) = (s.push v).pushAll rest := rfl
    rw [e, ih (s.push v)]
    simp only [State.push_regs, State.sp_push, RegFile.set_set, List.length_cons]
    have : s.sp - 1 - BitVec.ofNat 8 rest.length = s.sp - BitVec.ofNat 8 (rest.length + 1) := by
      rw [BitVec.ofNat_add, BitVec.sub_sub, BitVec.add_comm]
      rfl
    rw [this]
    rfl

/-- The byte pushed `k`-th stands `k + 1` below the old `SP`, and no byte outside the pushed ones changes,
as long as the pushed bytes do not wrap. -/
theorem State.load_pushAll (vs : List Byte) (s : State) (h : vs.length ≤ s.sp.toNat) (a : Byte) :
    (s.pushAll vs).load a =
      if a.toNat < s.sp.toNat ∧ s.sp.toNat ≤ a.toNat + vs.length then vs.getD (s.sp.toNat - 1 - a.toNat) 0
      else s.load a := by
  induction vs generalizing s with
  | nil => simp [State.pushAll]
  | cons v rest ih =>
    have e : s.pushAll (v :: rest) = (s.push v).pushAll rest := rfl
    have hsp : s.sp.toNat < 256 := s.sp.isLt
    simp only [List.length_cons] at h
    have hsub : (s.sp - 1).toNat = s.sp.toNat - 1 := by
      rw [BitVec.toNat_sub]
      simp
      omega
    rw [e, ih (s.push v) (by rw [State.sp_push, hsub]; omega), State.sp_push, hsub, State.load_push]
    by_cases ha : a = s.sp - 1
    · subst ha
      rw [hsub]
      simp
      omega
    · have hne : a.toNat ≠ s.sp.toNat - 1 := fun e => ha (BitVec.eq_of_toNat_eq (by rw [hsub, e]))
      simp only [ha, if_false, List.length_cons]
      by_cases hr : a.toNat < s.sp.toNat - 1 ∧ s.sp.toNat - 1 ≤ a.toNat + rest.length
      · rw [if_pos hr, if_pos (by omega)]
        have : s.sp.toNat - 1 - a.toNat = (s.sp.toNat - 1 - 1 - a.toNat) + 1 := by omega
        rw [this, List.getD_cons_succ]
      · rw [if_neg hr, if_neg (by omega)]

/-- What PUSH can answer. -/
theorem execPush_cases {a : Byte} {s t : State} (h : execPush a s = .next t) :
    (∃ r, Reg.ofByte a = some r ∧ s.canPush 1 = true ∧ t = (s.push (s.decSp.reg r)).advance 1)
      ∨ ∃ f, t = s.latch f false := by
  rcases withReg_cases h with ⟨r, hr, h⟩ | h
  · split at h <;> simp only [raise, Host.Outcome.next.injEq] at h
    · exact .inr ⟨_, h.symm⟩
    · next hp => exact .inl ⟨r, hr, by simpa using hp, h.symm⟩
  · exact .inr ⟨_, h⟩

/-- What POP can answer. -/
theorem execPop_cases {a : Byte} {s t : State} (h : execPop a s = .next t) :
    (∃ r, Reg.ofByte a = some r ∧ s.canPop 1 = true ∧ t = (s.popReg r).advance 1)
      ∨ ∃ f, t = s.latch f false := by
  rcases withReg_cases h with ⟨r, hr, h⟩ | h
  · split at h <;> simp only [raise, Host.Outcome.next.injEq] at h
    · exact .inr ⟨_, h.symm⟩
    · next hp => exact .inl ⟨r, hr, by simpa using hp, h.symm⟩
  · exact .inr ⟨_, h⟩

/-- What CALL can answer. -/
theorem execCall_cases {a : Byte} {s t : State} (h : execCall a s = .next t) :
    (∃ r, Reg.ofByte a = some r ∧ addressInRange (s.pc + 2) = true ∧ s.canPush 1 = true
        ∧ t = (s.push (lowByte (s.pc + 2))).jump ((s.push (lowByte (s.pc + 2))).reg r))
      ∨ ∃ f, t = s.latch f false := by
  rcases withReg_cases h with ⟨r, hr, h⟩ | h
  · simp only at h
    split at h
    · simp only [raise, Host.Outcome.next.injEq] at h
      exact .inr ⟨_, h.symm⟩
    · split at h <;> simp only [raise, Host.Outcome.next.injEq] at h
      · exact .inr ⟨_, h.symm⟩
      · next ha hp => exact .inl ⟨r, hr, by simpa using ha, by simpa using hp, h.symm⟩
  · exact .inr ⟨_, h⟩

/-- What RET can answer. -/
theorem execRet_cases {s t : State} (h : execRet s = .next t) :
    (s.canPop 1 = true ∧ t = s.popPc) ∨ ∃ f, t = s.latch f false := by
  unfold execRet at h
  split at h <;> simp only [raise, Host.Outcome.next.injEq] at h
  · exact .inr ⟨_, h.symm⟩
  · next hp => exact .inl ⟨by simpa using hp, h.symm⟩

/-- The nine pops of IRET, field by field. -/
theorem State.popFrame_eq (s : State) : s.popFrame = { s with
    regs := ⟨s.load (s.sp + 6), s.load (s.sp + 5), s.load (s.sp + 4), s.load (s.sp + 3), s.load (s.sp + 2),
      s.load (s.sp + 1), s.load s.sp, s.sp + 9⟩
    fl := s.load (s.sp + 7)
    pc := zext9 (s.load (s.sp + 8)) } := by
  have e : ∀ m n k : Byte, m + n = k → s.sp + m + n = s.sp + k := by
    intro m n k h
    rw [BitVec.add_assoc, h]
  simp only [State.popFrame, State.popReg, State.popFlags, State.popPc, State.jump, State.incSp, State.setReg,
    State.top, State.load, State.sp, State.reg, RegFile.get, RegFile.set]
  have hsp : s.regs.x7 = s.sp := rfl
  simp only [hsp, e 1 1 2 rfl, e 2 1 3 rfl, e 3 1 4 rfl, e 4 1 5 rfl, e 5 1 6 rfl, e 6 1 7 rfl, e 7 1 8 rfl,
    e 8 1 9 rfl]

/-- The state IRET leaves: the frame's bytes, and `IM` from `IM_SAVED` (R151). -/
def State.returned (s : State) : State := { s with
    regs := ⟨s.load (s.sp + 6), s.load (s.sp + 5), s.load (s.sp + 4), s.load (s.sp + 3), s.load (s.sp + 2),
      s.load (s.sp + 1), s.load s.sp, s.sp + 9⟩
    fl := s.load (s.sp + 7)
    pc := zext9 (s.load (s.sp + 8))
    im := s.imSaved }

theorem returnFromInterrupt_returned {s : State} (h : s.canPop 9 = true) :
    returnFromInterrupt s = .next s.returned := by
  simp only [returnFromInterrupt, h, State.popFrame_eq]
  rfl

/-- What IRET can answer. -/
theorem returnFromInterrupt_cases {s t : State} (h : returnFromInterrupt s = .next t) :
    (s.canPop 9 = true ∧ t = s.returned) ∨ ∃ f, t = s.latch f false := by
  cases hp : s.canPop 9 with
  | true =>
    rw [returnFromInterrupt_returned hp] at h
    exact .inl ⟨rfl, (Host.Outcome.next.inj h).symm⟩
  | false =>
    rw [returnFromInterrupt, if_pos hp] at h
    exact .inr ⟨_, (Host.Outcome.next.inj h).symm⟩

/-- What INT can answer. -/
theorem execInt_cases {a : Byte} {s t : State} (h : execInt a s = .next t) :
    (∃ r, Reg.ofByte a = some r ∧ (s.reg r).toNat ≤ 7
        ∧ t = { s with is := s.is ||| lineBit (s.reg r).toNat }.advance 1)
      ∨ ∃ f, t = s.latch f false := by
  rcases withReg_cases h with ⟨r, hr, h⟩ | h
  · simp only at h
    split at h <;> simp only [raise, Host.Outcome.next.injEq] at h
    · exact .inr ⟨_, h.symm⟩
    · next hn => exact .inl ⟨r, hr, by omega, h.symm⟩
  · exact .inr ⟨_, h⟩

/-! The interrupt entry -/

/-- `takeInterrupt` on the state its entry builds. -/
def State.entered (s : State) (n : Line) : State :=
  let saved := { s with imSaved := s.im, im := 0x00, is := s.is &&& ~~~(lineBit n.val) }.pushAll s.entryFrame
  saved.jump (saved.load (vectorAddress n))

/-- What the interrupt entry can answer. -/
theorem takeInterrupt_cases {n : Line} {s t : State} (h : takeInterrupt n s = .next t) :
    (addressInRange s.pc = true ∧ s.canPush 9 = true ∧ t = s.entered n) ∨ ∃ f, t = s.latch f true := by
  unfold takeInterrupt at h
  split at h
  · simp only [raiseInEntry, Host.Outcome.next.injEq] at h
    exact .inr ⟨_, h.symm⟩
  · split at h <;> simp only [raiseInEntry, Host.Outcome.next.injEq] at h
    · exact .inr ⟨_, h.symm⟩
    · next ha hp => exact .inl ⟨by simpa using ha, by simpa using hp, h.symm⟩

theorem takeInterrupt_entered {n : Line} {s : State} (ha : addressInRange s.pc = true)
    (hp : s.canPush 9 = true) : takeInterrupt n s = .next (s.entered n) := by
  simp [takeInterrupt, ha, hp, State.entered]

/-- The entry always answers a state. -/
theorem takeInterrupt_next (n : Line) (s : State) : ∃ t, takeInterrupt n s = .next t := by
  unfold takeInterrupt
  split
  · exact ⟨_, rfl⟩
  · split <;> exact ⟨_, rfl⟩

/-- What the interrupt check can answer. -/
theorem interruptCheck_cases {s t : State} (h : interruptCheck s = .next t) :
    (lowestLine s.deliverable = none ∧ t = s)
      ∨ ∃ n, lowestLine s.deliverable = some n ∧ takeInterrupt n s = .next t := by
  unfold interruptCheck at h
  split at h
  · next e => simp only [Host.Outcome.next.injEq] at h; exact .inl ⟨e, h.symm⟩
  · next n e => exact .inr ⟨n, e, h⟩

theorem interruptCheck_next (s : State) : ∃ t, interruptCheck s = .next t := by
  unfold interruptCheck
  split
  · exact ⟨_, rfl⟩
  · exact takeInterrupt_next _ _

/-- No line is found exactly when no bit is set. -/
theorem lowestLine_none {d : Byte} : lowestLine d = none ↔ ∀ k : Line, d.getLsbD k.val = false := by
  simp only [lowestLine, List.find?_eq_none]
  constructor
  · intro h k
    have := h k (by fin_cases k <;> decide)
    simpa using this
  · intro h k _
    simp only [Bool.not_eq_true]
    exact h k

/-- The line found has its bit set, and no lower line has. -/
theorem lowestLine_some {d : Byte} {n : Line} :
    lowestLine d = some n ↔ d.getLsbD n.val = true ∧ ∀ k : Line, k < n → d.getLsbD k.val = false := by
  simp only [lowestLine, List.find?_cons, List.find?_nil]
  constructor
  · intro h
    repeat' split at h
    all_goals first | (simp at h; done) | skip
    all_goals
      obtain rfl := Option.some.inj h
      refine ⟨by assumption, fun k hk => ?_⟩
      fin_cases k <;> first | assumption | (exact absurd hk (by decide))
  · rintro ⟨hn, hlt⟩
    have h0 := hlt 0
    have h1 := hlt 1
    have h2 := hlt 2
    have h3 := hlt 3
    have h4 := hlt 4
    have h5 := hlt 5
    have h6 := hlt 6
    clear hlt
    fin_cases n <;> simp_all

theorem State.deliverable_getLsbD (s : State) (k : Nat) :
    s.deliverable.getLsbD k = (s.is.getLsbD k && s.im.getLsbD k) := BitVec.getLsbD_and ..

theorem narrow_natCast (n : Nat) : narrow (n : Int) = BitVec.ofNat 8 n := by simp [narrow]

theorem lineBit_getLsbD {n k : Nat} (hn : n ≤ 7) (hk : k < 8) : (lineBit n).getLsbD k = decide (k = n) := by
  interval_cases n <;> interval_cases k <;> rfl

theorem State.canPush_false {s : State} {k : Nat} (h : s.sp.toNat < s.cfg.stackFloor.toNat + k) :
    s.canPush k = false := by
  simp [State.canPush]
  omega

theorem State.canPop_false {s : State} {k : Nat} (h : 0xF4 < s.sp.toNat + k) : s.canPop k = false := by
  simp [State.canPop, stackBase]
  omega

theorem State.push_wf {s : State} (h : s.mem.wf) (v : Byte) : (s.push v).mem.wf := Memory.write_wf h _ _

theorem State.pushAll_wf {s : State} (h : s.mem.wf) (vs : List Byte) : (s.pushAll vs).mem.wf := by
  induction vs generalizing s with
  | nil => exact h
  | cons v r ih => exact ih (State.push_wf h v)

/-- Every field of the state after an interrupt entry. -/
theorem State.entered_eq (n : Line) (s : State) : s.entered n =
    let saved : State := { s with imSaved := s.im, im := 0x00, is := s.is &&& ~~~(lineBit n.val) }.pushAll s.entryFrame
    { s with
      regs := s.regs.set .r7 (s.sp - 9), mem := saved.mem, im := 0, imSaved := s.im,
      is := s.is &&& ~~~(lineBit n.val), pc := zext9 (saved.mem.read (vectorAddress n)) } := by
  unfold State.entered
  conv_lhs => rw [State.pushAll_eq]
  rfl

end Sys2Proof.Machine
end

