-- ==== Sys2Proof/Laws/Exec.lean ====
section
/-! SUPPORT. What an instruction, a fetch and a step can do, each said once. -/

namespace Sys2Proof.Machine

/-- The form of the next state of an instruction that completed. -/
def Completed (i : Instr) (s t : State) : Prop :=
  match i with
  | .ldi a imm => ∃ r, Reg.ofByte a = some r ∧ t = (s.setReg r imm).advance 2
  | .ld a b => ∃ r q, Reg.ofByte a = some r ∧ Reg.ofByte b = some q ∧ t = (s.setReg r (s.load (s.reg q))).advance 2
  | .st a b => ∃ r q, Reg.ofByte a = some r ∧ Reg.ofByte b = some q ∧ t = (s.store (s.reg r) (s.reg q)).advance 2
  | .prn a => ∃ r, Reg.ofByte a = some r ∧ t = (s.emit .dec (s.reg r)).advance 1
  | .pra a => ∃ r, Reg.ofByte a = some r ∧ t = (s.emit .chr (s.reg r)).advance 1
  | .add a _ | .sub a _ | .mul a _ | .div a _ | .mod a _ | .and a _ | .or a _ | .xor a _ =>
    ∃ r v, Reg.ofByte a = some r ∧ t = (s.setReg r v).advance 2
  | .inc a | .dec a | .not a => ∃ r v, Reg.ofByte a = some r ∧ t = (s.setReg r v).advance 1
  | .cmp _ _ => ∃ v, t = { s with fl := v }.advance 2
  | .push a => ∃ r, Reg.ofByte a = some r ∧ s.canPush 1 = true ∧ t = (s.push (s.decSp.reg r)).advance 1
  | .pop a => ∃ r, Reg.ofByte a = some r ∧ s.canPop 1 = true ∧ t = (s.popReg r).advance 1
  | .call a => ∃ r, Reg.ofByte a = some r ∧ addressInRange (s.pc + 2) = true ∧ s.canPush 1 = true
      ∧ t = (s.push (lowByte (s.pc + 2))).jump ((s.push (lowByte (s.pc + 2))).reg r)
  | .ret => s.canPop 1 = true ∧ t = s.popPc
  | .jmp a | .jeq a | .jne a | .jgt a | .jlt a =>
    (∃ r, Reg.ofByte a = some r ∧ t = s.jump (s.reg r)) ∨ i ≠ .jmp a ∧ t = s.advance 1
  | .int a => ∃ r, Reg.ofByte a = some r ∧ (s.reg r).toNat ≤ 7
      ∧ t = { s with is := s.is ||| lineBit (s.reg r).toNat }.advance 1
  | .iret => s.canPop 9 = true ∧ t = s.returned
  | .nop => t = s.advance 0
  | .hlt => t = { s with run := false }.advance 0

/-- An instruction completes, or latches a fault over the state it started in. -/
theorem exec_cases {i : Instr} {s t : State} (h : exec i s = .next t) :
    Completed i s t ∨ ∃ f, t = s.latch f false := by
  have jump : ∀ {c : Bool} {a : Byte}, jumpWhen c a s = .next t →
      ((∃ r, Reg.ofByte a = some r ∧ t = s.jump (s.reg r)) ∨ t = s.advance 1) ∨ ∃ f, t = s.latch f false :=
    fun h => (jumpWhen_cases h).elim (fun h => .inl (.inl h)) fun h => h.imp .inr fun h => ⟨_, h⟩
  have sub : ∀ {p q r : Prop}, (q → r) → p ∨ q → p ∨ r := fun f h => h.imp_right f
  cases i with
  | ldi a imm =>
    rcases withReg_cases h with ⟨r, hr, h⟩ | h
    · exact .inl ⟨r, hr, (Host.Outcome.next.inj h).symm⟩
    · exact .inr ⟨_, h⟩
  | ld a b =>
    rcases withRegs_cases h with ⟨r, q, hr, hq, h⟩ | ⟨v, h⟩
    · exact .inl ⟨r, q, hr, hq, (Host.Outcome.next.inj h).symm⟩
    · exact .inr ⟨_, h⟩
  | st a b =>
    rcases withRegs_cases h with ⟨r, q, hr, hq, h⟩ | ⟨v, h⟩
    · exact .inl ⟨r, q, hr, hq, (Host.Outcome.next.inj h).symm⟩
    · exact .inr ⟨_, h⟩
  | prn a => exact (printReg_cases h).imp_right fun h => ⟨_, h⟩
  | pra a => exact (printReg_cases h).imp_right fun h => ⟨_, h⟩
  | add a b => exact aluTwo_cases (by decide) h
  | sub a b => exact aluTwo_cases (by decide) h
  | mul a b => exact aluTwo_cases (by decide) h
  | div a b => exact aluTwo_cases (by decide) h
  | mod a b => exact aluTwo_cases (by decide) h
  | and a b => exact aluTwo_cases (by decide) h
  | or a b => exact aluTwo_cases (by decide) h
  | xor a b => exact aluTwo_cases (by decide) h
  | inc a => exact aluOne_cases (by decide) h
  | dec a => exact aluOne_cases (by decide) h
  | not a => exact aluOne_cases (by decide) h
  | cmp a b => exact cmp_cases h
  | push a => exact execPush_cases h
  | pop a => exact execPop_cases h
  | call a => exact execCall_cases h
  | ret => exact execRet_cases h
  | jmp a =>
    rcases withReg_cases h with ⟨r, hr, h⟩ | h
    · exact .inl (.inl ⟨r, hr, (Host.Outcome.next.inj h).symm⟩)
    · exact .inr ⟨_, h⟩
  | jeq a => exact (jump h).imp_left (sub fun h => ⟨Instr.noConfusion, h⟩)
  | jne a => exact (jump h).imp_left (sub fun h => ⟨Instr.noConfusion, h⟩)
  | jgt a => exact (jump h).imp_left (sub fun h => ⟨Instr.noConfusion, h⟩)
  | jlt a => exact (jump h).imp_left (sub fun h => ⟨Instr.noConfusion, h⟩)
  | int a => exact execInt_cases h
  | iret => exact returnFromInterrupt_cases h
  | nop => exact .inl (Host.Outcome.next.inj h).symm
  | hlt => exact .inl (Host.Outcome.next.inj h).symm

/-- The bytes of the fetch window: none past 0xFF, at most three. -/
theorem State.fetchWindow_eq (s : State) : s.fetchWindow =
    if 0xFF < s.pc.toNat then []
    else if s.pc.toNat = 0xFF then [s.load 0xFF]
    else if s.pc.toNat = 0xFE then [s.load 0xFE, s.load 0xFF]
    else [s.load (BitVec.ofNat 8 s.pc.toNat), s.load (BitVec.ofNat 8 (s.pc.toNat + 1)),
      s.load (BitVec.ofNat 8 (s.pc.toNat + 2))] := by
  unfold State.fetchWindow
  split
  · next h => simp; omega
  · split
    · next h => simp [h]
    · split
      · next h => simp [h]
      · next h1 h2 h3 =>
        have a0 : s.pc.toNat ≤ 255 := by omega
        have a1 : s.pc.toNat + 1 ≤ 255 := by omega
        have a2 : s.pc.toNat + 2 ≤ 255 := by omega
        simp [a0, a1, a2]

/-- What decoding can answer, in the order of its checks. -/
theorem decode_cases (m : OpcodeMap) (bs : List Byte) :
    (bs = [] ∧ decode m bs = .error .noOpcode)
      ∨ ∃ op rest, bs = op :: rest
        ∧ ((decode m bs = .error (.unknownInstruction op) ∧ ∀ n, m.byteOf n ≠ op)
          ∨ ∃ n, m.byteOf n = op
            ∧ ((rest.length < operandCount op ∧ decode m bs = .error (.truncated (operandCount op)))
              ∨ (operandCount op ≤ rest.length ∧ decode m bs
                = .ok (assemble n (rest.getD 0 0) (rest.getD 1 0), rest.drop (operandCount op))))) := by
  cases bs with
  | nil => exact .inl ⟨rfl, rfl⟩
  | cons op rest =>
    refine .inr ⟨op, rest, rfl, ?_⟩
    rcases decodeOpcode_cases m op with ⟨e, h⟩ | ⟨n, h, e⟩
    · exact .inl ⟨by rw [decode, e], h⟩
    · refine .inr ⟨n, h, ?_⟩
      by_cases hl : rest.length < operandCount op
      · exact .inl ⟨hl, by simp [decode, e, hl]⟩
      · exact .inr ⟨by omega, by simp [decode, e, hl]⟩

/-- A fetched instruction stands whole inside memory. -/
theorem fetch_ok_bounds {s : State} {i : Instr} (hm : s.cfg.opcodeMap.Legal) (h : fetch s = .ok i) :
    s.pc.toNat + i.operands.length ≤ 0xFF := by
  unfold fetch at h
  rcases decode_cases s.cfg.opcodeMap s.fetchWindow with ⟨-, e⟩ | ⟨op, rest, hw, ⟨e, -⟩ | ⟨n, hn, ⟨-, e⟩ | ⟨hl, e⟩⟩⟩
  · simp [e] at h
  · simp [e] at h
  · simp [e] at h
  · simp only [e, Except.ok.injEq] at h
    subst h
    rw [Instr.operands_length, assemble_mnemonic, ← hm.count n, hn]
    rw [State.fetchWindow_eq] at hw
    have : operandCount op ≤ 2 := by
      rw [← hn, hm.count n]
      cases n <;> decide
    split at hw
    · cases hw
    · split at hw
      · obtain ⟨-, rfl⟩ := List.cons.inj hw
        simp at hl
        omega
      · split at hw
        · obtain ⟨-, rfl⟩ := List.cons.inj hw
          simp at hl
          omega
        · omega

/-- A step that could run fetched nothing, or ran an instruction that faulted, or completed it without an
entry, or entered an interrupt after it. -/
theorem step_cases {s t : State} (h : step s = .next t) :
    (s.runnable = false ∧ t = s)
      ∨ (s.runnable = true ∧ ∃ f, fetch s = .error f ∧ t = s.latch f false)
      ∨ (s.runnable = true ∧ ∃ i u, fetch s = .ok i ∧ exec i s = .next u
        ∧ ((u.fault.isSome ∧ t = u)
          ∨ (u.fault = none ∧ lowestLine u.deliverable = none ∧ t = u)
          ∨ (u.fault = none ∧ ∃ n, lowestLine u.deliverable = some n ∧ takeInterrupt n u = .next t))) := by
  unfold step at h
  split at h
  · next hr =>
    refine .inr ?_
    cases e : fetch s with
    | error f =>
      simp only [e, raise, Host.Outcome.next.injEq] at h
      exact .inl ⟨hr, f, rfl, h.symm⟩
    | ok i =>
      simp only [e] at h
      refine .inr ⟨hr, i, ?_⟩
      cases hu : exec i s with
      | next u =>
        refine ⟨u, rfl, rfl, ?_⟩
        simp only [hu, afterInstruction] at h
        split at h
        · next hf => exact .inl ⟨hf, (Host.Outcome.next.inj h).symm⟩
        · next hf =>
          have hf : u.fault = none := by simpa using hf
          rcases interruptCheck_cases h with ⟨hn, rfl⟩ | ⟨n, hn, ht⟩
          · exact .inr (.inl ⟨hf, hn, rfl⟩)
          · exact .inr (.inr ⟨hf, n, hn, ht⟩)
      | fault f => simp [hu, afterInstruction] at h
      | refused r => simp [hu, afterInstruction] at h
  · next hr => exact .inl ⟨by simpa using hr, (Host.Outcome.next.inj h).symm⟩

theorem State.runnable_iff (s : State) : s.runnable = true ↔ s.run = true ∧ s.fault = none := by
  simp [State.runnable]

theorem afterInstruction_next (t : State) :
    afterInstruction (.next t) = if t.fault = none then interruptCheck t else .next t := by
  cases h : t.fault <;> simp [afterInstruction, h]

theorem step_of_fetch_ok {s : State} {i : Instr} (h1 : s.run = true) (h2 : s.fault = none)
    (h : fetch s = .ok i) : step s = afterInstruction (exec i s) := by
  simp [step, s.runnable_iff.mpr ⟨h1, h2⟩, h]

theorem step_of_fetch_error {s : State} {f : Fault} (h1 : s.run = true) (h2 : s.fault = none)
    (h : fetch s = .error f) : step s = .next (s.latch f false) := by
  simp [step, s.runnable_iff.mpr ⟨h1, h2⟩, h, raise]

/-- Every instruction keeps the canonical form of memory. -/
theorem exec_mem_wf {i : Instr} {s t : State} (h : exec i s = .next t) (hm : s.mem.wf) : t.mem.wf := by
  rcases exec_cases h with hc | ⟨f, rfl⟩
  · cases i with
    | st a b =>
      obtain ⟨r, q, -, -, rfl⟩ := hc
      exact Memory.write_wf hm _ _
    | ret | iret =>
      obtain ⟨-, rfl⟩ := hc
      exact hm
    | call a =>
      obtain ⟨r, -, -, -, rfl⟩ := hc
      exact Memory.write_wf hm _ _
    | push a =>
      obtain ⟨r, -, -, rfl⟩ := hc
      exact Memory.write_wf hm _ _
    | pop a | int a =>
      obtain ⟨r, -, -, rfl⟩ := hc
      exact hm
    | jmp a | jeq a | jne a | jgt a | jlt a => rcases hc with ⟨r, -, rfl⟩ | ⟨-, rfl⟩ <;> exact hm
    | nop | hlt =>
      obtain rfl := hc
      exact hm
    | cmp a b =>
      obtain ⟨r, rfl⟩ := hc
      exact hm
    | _ =>
      obtain ⟨r, q, -, -, rfl⟩ := hc
      exact hm
  · exact hm

/-- A driver's run that has ended takes nothing further from its list. -/
theorem driverRun_stopped {s : State} (h : s.run = false) (events : List (List EnvEvent)) :
    driverRun s events = .next s := by
  cases events <;> simp [driverRun, h]

/-- A stop request before a step ends the run without that step. -/
theorem driverRun_cons_stop {s : State} {es : List EnvEvent} (h : s.run = true)
    (hu : (applyEvents s es).run = false) (rest : List (List EnvEvent)) :
    driverRun s (es :: rest) = .next (applyEvents s es) := by
  simp [driverRun, h, hu]

/-- A driver whose machine runs invokes a step and goes on from where it led. -/
theorem driverRun_cons_step {s t : State} {es : List EnvEvent} (h : s.run = true)
    (hu : (applyEvents s es).run = true) (ht : step (applyEvents s es) = .next t)
    (rest : List (List EnvEvent)) : driverRun s (es :: rest) = driverRun t rest := by
  simp [driverRun, h, hu, ht]

end Sys2Proof.Machine
end

