-- ==== Sys2Proof/Laws/PerInstr.lean ====
section
/-! SUPPORT. Statements made for every instruction, one lemma per constructor. `EncodedLength`: the words of
an instruction are one more than the operand count in the top two bits of the first
(spec/30_encoding.md R60, R61). -/

namespace Sys2Proof.Laws.EncodedLength

/-- `length = 1 + operandCount` (R61), under any legal map. -/
def Statement (i : Instr) : Prop :=
  ∀ m : OpcodeMap, m.Legal → (encode m i).length = 1 + operandCount (m.byteOf i.mnemonic)

theorem of_count (i : Instr) : Statement i := by
  intro m h
  rw [h.count, ← Instr.operands_length, encode, List.length_cons, Nat.add_comm]

theorem ldi (a imm : Byte) : Statement (.ldi a imm) := of_count _
theorem ld (a b : Byte) : Statement (.ld a b) := of_count _
theorem st (a b : Byte) : Statement (.st a b) := of_count _
theorem prn (a : Byte) : Statement (.prn a) := of_count _
theorem pra (a : Byte) : Statement (.pra a) := of_count _
theorem add (a b : Byte) : Statement (.add a b) := of_count _
theorem sub (a b : Byte) : Statement (.sub a b) := of_count _
theorem mul (a b : Byte) : Statement (.mul a b) := of_count _
theorem div (a b : Byte) : Statement (.div a b) := of_count _
theorem mod (a b : Byte) : Statement (.mod a b) := of_count _
theorem and (a b : Byte) : Statement (.and a b) := of_count _
theorem or (a b : Byte) : Statement (.or a b) := of_count _
theorem xor (a b : Byte) : Statement (.xor a b) := of_count _
theorem inc (a : Byte) : Statement (.inc a) := of_count _
theorem dec (a : Byte) : Statement (.dec a) := of_count _
theorem not (a : Byte) : Statement (.not a) := of_count _
theorem cmp (a b : Byte) : Statement (.cmp a b) := of_count _
theorem push (a : Byte) : Statement (.push a) := of_count _
theorem pop (a : Byte) : Statement (.pop a) := of_count _
theorem call (a : Byte) : Statement (.call a) := of_count _
theorem ret : Statement (.ret) := of_count _
theorem jmp (a : Byte) : Statement (.jmp a) := of_count _
theorem jeq (a : Byte) : Statement (.jeq a) := of_count _
theorem jne (a : Byte) : Statement (.jne a) := of_count _
theorem jgt (a : Byte) : Statement (.jgt a) := of_count _
theorem jlt (a : Byte) : Statement (.jlt a) := of_count _
theorem int (a : Byte) : Statement (.int a) := of_count _
theorem iret : Statement (.iret) := of_count _
theorem nop : Statement (.nop) := of_count _
theorem hlt : Statement (.hlt) := of_count _

end Sys2Proof.Laws.EncodedLength
end

