-- ==== Sys2Proof/Tests/Slice0.lean ====
section
/-! SUPPORT. Small tests and the witnesses of the statements' hypotheses. Expected values come from
spec/30_encoding.md R65 (the words) and from the vectors of spec/95_test_vectors.md, named in each
comment; the vectors' start state is `State.reset` with the changes given. -/

open Sys2Proof Sys2Proof.Machine Sys2Proof.Claims

namespace Sys2Proof.Tests

/-! ### Helpers -/

/-- The reset state with `pc` set and bytes placed there. -/
def code (pc : PcWord) (bytes : List Byte) : State := { State.reset with pc := pc }.placeAtPc bytes

/-- Registers R0 and R1 set. -/
def withR01 (s : State) (a b : Byte) : State := (s.setReg .r0 a).setReg .r1 b

/-- What is seen of the next state, if there is one. -/
def seen {α : Type} (f : State → α) : Result → Option α
  | .next t => some (f t)
  | _ => none

/-- One step, and what is seen after it. -/
def oneStep {α : Type} (s : State) (f : State → α) : Option α := seen f (step s)

/-- The latched fault and `pc` after one step. -/
def faultOf (s : State) : Option (Option FaultRecord × PcWord × Bool) :=
  oneStep s fun t => (t.fault, t.pc, t.run)

/-- The words decode to the instruction and nothing is left over. -/
def decodesTo (words : List Byte) (i : Instr) : Bool :=
  match decode OpcodeMap.standard words with
  | .ok (j, rest) => decide (j = i ∧ rest = [])
  | .error _ => false

/-! ### Well-formedness: each check refuses an ill-formed term -/

theorem test_wf_register_a : (Instr.ldi 8 0).wf = false ∧ (Instr.ldi 7 255).wf = true := by decide

theorem test_wf_register_b : (Instr.add 0 8).wf = false ∧ (Instr.add 7 7).wf = true := by decide

theorem test_wf_single_register : (Instr.push 255).wf = false ∧ Instr.iret.wf = true := by decide

/-! ### Decoding: words written out from R65 -/

theorem test_words_data_movement :
    [([0b10011001, 0b00000011, 0b11111111], Instr.ldi 3 255), ([0b10011000, 0b00000001, 0b00000010], .ld 1 2),
      ([0b10011010, 0b00000101, 0b00000110], .st 5 6), ([0b01000011, 0b00000100], .prn 4),
      ([0b01000010, 0b00000111], .pra 7)].all (fun p => decodesTo p.1 p.2) = true := by decide

theorem test_words_alu :
    [([0b10101000, 0b00000001, 0b00000010], Instr.add 1 2), ([0b10101001, 0b00000010, 0b00000001], .sub 2 1),
      ([0b10101010, 0b00000011, 0b00000100], .mul 3 4), ([0b10101011, 0b00000101, 0b00000110], .div 5 6),
      ([0b10101100, 0b00000110, 0b00000101], .mod 6 5), ([0b10110011, 0b00000111, 0b00000000], .and 7 0),
      ([0b10110001, 0b00000000, 0b00000111], .or 0 7), ([0b10110010, 0b00000001, 0b00000011], .xor 1 3),
      ([0b01111000, 0b00000001], .inc 1), ([0b01111001, 0b00000010], .dec 2), ([0b01110000, 0b00000011], .not 3),
      ([0b10100000, 0b00000100, 0b00000101], .cmp 4 5)].all (fun p => decodesTo p.1 p.2) = true := by decide

theorem test_words_stack_and_jumps :
    [([0b01001101, 0b00000001], Instr.push 1), ([0b01001100, 0b00000010], .pop 2),
      ([0b01001000, 0b00000011], .call 3), ([0b00001001], .ret), ([0b01010000, 0b00000100], .jmp 4),
      ([0b01010001, 0b00000101], .jeq 5), ([0b01010010, 0b00000110], .jne 6), ([0b01010100, 0b00000111], .jgt 7),
      ([0b01010011, 0b00000000], .jlt 0)].all (fun p => decodesTo p.1 p.2) = true := by decide

theorem test_words_system :
    [([0b01001010, 0b00000001], Instr.int 1), ([0b00001011], .iret), ([0b00000000], .nop),
      ([0b00000001], .hlt)].all (fun p => decodesTo p.1 p.2) = true := by decide

/-- Byte 0 of a table word is its low byte (spec/opcode_table.json: the opcode byte stands at `pc`). -/
theorem test_table_word : decodeTableWord 24 0xFF0399 = some (.ldi 3 255) ∧ decodeTableWord 8 0x4D = some (.push 0)
    ∧ decodeTableWord 8 0x02 = none := by decide

/-- The word placed for the next fetch is what runs. -/
theorem test_fetch_word :
    oneStep (State.reset.withFetchWord 24 0xFF0399) (fun t => (t.reg .r3, t.pc)) = some (0xFF, 3) := by decide

/-! ### Fetch and decode faults (T-E1, T-E5, T-E6, T-E8) -/

/-- T-E1. -/
theorem test_unknown : faultOf (code 0 [0x02]) = some (some ⟨.unknownInstruction 0x02, 0, false⟩, 0, false) := by decide

/-- T-E5 and T-E7: two operand bytes, `pc + 2`. -/
theorem test_operand_past_end :
    faultOf (code 0xFE [0x99, 0x00]) = some (some ⟨.memoryOutOfBounds 0x100, 0xFE, false⟩, 0xFE, false)
      ∧ faultOf (code 0xFF [0x99]) = some (some ⟨.memoryOutOfBounds 0x101, 0xFF, false⟩, 0xFF, false) := by decide

/-- T-E8, the second step. -/
theorem test_pc_past_end : faultOf (code 0x100 []) = some (some ⟨.memoryOutOfBounds 0x100, 0x100, false⟩, 0x100, false) := by
  decide

/-! ### Data movement -/

/-- T-D2. -/
theorem test_ldi : oneStep (code 0 [0x99, 7, 0x80]) (fun t => (t.sp, t.pc, t.fl)) = some (0x80, 3, 0) := by decide

/-- T-E10. -/
theorem test_ldi_operand : faultOf (code 0x10 [0x99, 8, 1]) = some (some ⟨.invalidOperand 8, 0x10, false⟩, 0x10, false) := by
  decide

/-- T-D4. -/
theorem test_ld : oneStep (((code 0x10 [0x98, 1, 1]).setReg .r1 0x20).store 0x20 0x5A) (fun t => (t.reg .r1, t.pc))
    = some (0x5A, 0x13) := by decide

/-- T-D5. -/
theorem test_st : oneStep (withR01 (code 0 [0x9A, 0, 1]) 0x40 0x7E) (fun t => (t.load 0x40, t.load 0x7E, t.pc))
    = some (0x7E, 0, 3) := by decide

/-- T-D8. -/
theorem test_prn : oneStep (withR01 (code 0 [0x43, 0]) 0x48 0) (fun t => (t.out, t.pc)) = some ([⟨.dec, 0x48⟩], 2) := by
  decide

/-- T-D9. -/
theorem test_pra : oneStep (withR01 (code 0 [0x42, 0]) 0x48 0) (fun t => (t.out, t.pc)) = some ([⟨.chr, 0x48⟩], 2) := by
  decide

/-- 72 is shown as 7, 2 (T-L7). -/
theorem test_shown : (OutRecord.mk .dec 0x48).shown = some ['7', '2'] := by decide

/-! ### ALU -/

/-- `op R0, R1` at 0x10: R0, `FL` and `pc` after it. -/
def alu (op a b : Byte) : Option (Byte × Byte × PcWord) :=
  oneStep (withR01 (code 0x10 [op, 0, 1]) a b) fun t => (t.reg .r0, t.fl, t.pc)

/-- T-A1, T-A2. -/
theorem test_add : alu 0xA8 0xC8 0x64 = some (0x2C, 0, 0x13) ∧ alu 0xA8 0xFF 0x01 = some (0, 0, 0x13) := by decide

/-- T-A4, T-A6. -/
theorem test_sub : alu 0xA9 0x05 0x0A = some (0xFB, 0, 0x13) ∧ alu 0xA9 0x64 0x64 = some (0, 0, 0x13) := by decide

/-- T-A9, T-A10. -/
theorem test_mul : alu 0xAA 0xFF 0xFF = some (0x01, 0, 0x13) ∧ alu 0xAA 0xFF 0x02 = some (0xFE, 0, 0x13) := by decide

/-- T-A11, T-A13. -/
theorem test_div : alu 0xAB 0x64 0x07 = some (0x0E, 0, 0x13) ∧ alu 0xAB 0x05 0x64 = some (0, 0, 0x13) := by decide

/-- T-I9: no entry after the fault, line 0 stays pending. -/
theorem test_div_zero : oneStep { code 0x10 [0xAB, 0, 1] with is := 1 } (fun t => (t.fault, t.is, t.pc, t.run))
    = some (some ⟨.divisionByZero, 0x10, false⟩, 1, 0x10, false) := by decide

/-- T-A16, T-A19. -/
theorem test_mod : alu 0xAC 0x64 0x07 = some (0x02, 0, 0x13) ∧ alu 0xAC 0xFF 0x10 = some (0x0F, 0, 0x13) := by decide

/-- T-A20 to T-A22. -/
theorem test_logic : alu 0xB3 0xCC 0xAA = some (0x88, 0, 0x13) ∧ alu 0xB1 0xCC 0xAA = some (0xEE, 0, 0x13)
    ∧ alu 0xB2 0xCC 0xAA = some (0x66, 0, 0x13) := by decide

/-- `op R0` at 0x10. -/
def alu1 (op a : Byte) : Option (Byte × Byte × PcWord) :=
  oneStep (withR01 (code 0x10 [op, 0]) a 0) fun t => (t.reg .r0, t.fl, t.pc)

/-- T-A24, T-A25. -/
theorem test_inc : alu1 0x78 0xFF = some (0, 0, 0x12) ∧ alu1 0x78 0x7F = some (0x80, 0, 0x12) := by decide

/-- T-A26, T-A27. -/
theorem test_dec : alu1 0x79 0x00 = some (0xFF, 0, 0x12) ∧ alu1 0x79 0x01 = some (0, 0, 0x12) := by decide

/-- T-A28, T-A29. -/
theorem test_not : alu1 0x70 0x00 = some (0xFF, 0, 0x12) ∧ alu1 0x70 0x0F = some (0xF0, 0, 0x12) := by decide

/-- CMP from `FL = 0xF8`: all eight bits are written (T-A39 to T-A44). -/
def cmp (a b : Byte) : Option (Byte × Byte) :=
  oneStep (withR01 { code 0x10 [0xA0, 0, 1] with fl := 0xF8 } a b) fun t => (t.fl, t.reg .r0)

theorem test_cmp : cmp 5 5 = some (1, 5) ∧ cmp 0xFF 0 = some (2, 0xFF) ∧ cmp 0x7F 0x80 = some (4, 0x7F) := by decide

/-! ### Stack and calls -/

/-- T-S5. -/
theorem test_push : oneStep ((withR01 (code 0x10 [0x4D, 0]) 0xAB 0).setReg .r7 1) (fun t => (t.sp, t.load 0, t.pc))
    = some (0, 0xAB, 0x12) := by decide

/-- T-S8. -/
theorem test_push_sp : oneStep (code 0x10 [0x4D, 7]) (fun t => (t.sp, t.load 0xF3, t.load 0xF4)) = some (0xF3, 0xF3, 0) := by
  decide

/-- T-S2. -/
theorem test_pop : oneStep (((code 0x10 [0x4C, 0]).setReg .r7 0xF3).store 0xF3 0xAB)
    (fun t => (t.reg .r0, t.sp, t.pc, t.load 0xF3)) = some (0xAB, 0xF4, 0x12, 0xAB) := by decide

/-- T-S9. -/
theorem test_pop_sp : oneStep (((code 0x10 [0x4C, 7]).setReg .r7 0xF3).store 0xF3 0x80) (fun t => t.sp) = some 0x81 := by
  decide

/-- T-S10 and T-S11. -/
theorem test_call : oneStep ((code 0x10 [0x48, 1]).setReg .r1 0x40) (fun t => (t.sp, t.load 0xF3, t.pc)) = some (0xF3, 0x12, 0x40)
    ∧ oneStep (code 0x10 [0x48, 7]) (fun t => t.pc) = some 0xF3 := by decide

/-- T-S12. -/
theorem test_call_end : oneStep (code 0xFE [0x48, 0]) (fun t => (t.fault, t.pc, t.sp))
    = some (some ⟨.memoryOutOfBounds 0x100, 0xFE, false⟩, 0xFE, 0xF4) := by decide

/-- T-S16 and T-S15. -/
theorem test_ret : oneStep (((code 0x10 [0x09]).setReg .r7 0xF3).store 0xF3 0xFF) (fun t => (t.pc, t.sp)) = some (0xFF, 0xF4)
    ∧ faultOf (code 0x10 [0x09]) = some (some ⟨.stackUnderflow 0xF4, 0x10, false⟩, 0x10, false) := by decide

/-! ### Jumps -/

/-- `op R2` at 0x09 with R2 = 0x10, for `FL` = 0, 1, 2, 4: the new `pc`. -/
def jump (op : Byte) : List (Option PcWord) :=
  [0, 1, 2, 4].map fun fl => oneStep ({ code 9 [op, 2] with fl := fl }.setReg .r2 0x10) fun t => t.pc

/-- T-J1 to T-J5. -/
theorem test_jumps : jump 0x50 = [some 0x10, some 0x10, some 0x10, some 0x10]
    ∧ jump 0x51 = [some 0x0B, some 0x10, some 0x0B, some 0x0B] ∧ jump 0x52 = [some 0x10, some 0x0B, some 0x10, some 0x10]
    ∧ jump 0x54 = [some 0x0B, some 0x0B, some 0x10, some 0x0B]
    ∧ jump 0x53 = [some 0x0B, some 0x0B, some 0x0B, some 0x10] := by decide

/-- T-E12: the operand is checked though the jump would not be taken. -/
theorem test_jump_operand : faultOf (code 0x10 [0x51, 9]) = some (some ⟨.invalidOperand 9, 0x10, false⟩, 0x10, false) := by
  decide

/-! ### System instructions and interrupts -/

/-- T-Y4: the mask is zero, so the line stays pending. -/
theorem test_int : oneStep { withR01 (code 5 [0x4A, 0]) 3 0 with im := 0 } (fun t => (t.is, t.pc, t.im)) = some (8, 7, 0) := by
  decide

/-- T-Y7: INT and the entry in one step. -/
theorem test_int_entry : oneStep ((code 0x10 [0x4A, 0]).store 0xF8 0x40)
    (fun t => (t.is, t.im, t.imSaved, t.sp, t.load 0xF3, t.pc)) = some (0, 0, 0xFF, 0xEB, 0x12, 0x40) := by decide

/-- T-Y9: the start state of an IRET with a full frame. -/
def iretState : State :=
  { (code 0x30 [0x0B]).setReg .r7 0xEB with
    im := 0, mem := (code 0x30 [0x0B]).mem.writeBytes 0xEB [6, 5, 4, 3, 2, 1, 0, 4, 7] }

theorem test_iret : oneStep iretState (fun t => (t.regs, t.fl, t.pc, t.im)) = some (⟨0, 1, 2, 3, 4, 5, 6, 0xF4⟩, 4, 7, 0xFF) := by
  decide

/-- T-I6: the re-enabled line 2 is entered in the same step, with the same frame. -/
theorem test_iret_entry : oneStep { iretState with is := 4, mem := iretState.mem.write 0xFA 0x50 }
    (fun t => (t.pc, t.sp, t.im, t.is, t.load 0xEB, t.load 0xF3)) = some (0x50, 0xEB, 0, 0, 6, 7) := by decide

/-- T-Y1. -/
theorem test_nop : oneStep (code 0x10 [0]) (fun t => t) = some { code 0x10 [0] with pc := 0x11 } := by decide

/-- T-I2: of lines 1 and 3 line 1 is taken. -/
theorem test_priority : oneStep (({ code 0x10 [0] with is := 0x0A }.store 0xF9 0x41).store 0xFB 0x43)
    (fun t => (t.pc, t.is, t.im, t.sp)) = some (0x41, 8, 0, 0xEB) := by decide

/-- T-Y2. -/
theorem test_hlt : oneStep (code 0x10 [1]) (fun t => (t.pc, t.run, t.fault)) = some (0x11, false, none) := by decide

/-- T-I1: the entry still follows HLT. -/
theorem test_hlt_entry : oneStep ({ code 0x10 [1] with is := 1 }.store 0xF8 0x40) (fun t => (t.pc, t.run, t.load 0xF3))
    = some (0x40, false, 0x11) := by decide

/-- T-I3: an entry fault leaves the completed NOP. -/
theorem test_entry_fault : oneStep ({ code 0x10 [0] with is := 1 }.setReg .r7 8) (fun t => (t.fault, t.pc, t.is, t.im, t.sp))
    = some (some ⟨.stackOverflow 8, 0x11, true⟩, 0x11, 1, 0xFF, 8) := by decide

/-- T-I7: line 5 raised between two NOPs is entered after the second. -/
theorem test_environment : seen (fun t => (t.pc, t.sp, t.load 0xF3, t.is, t.im))
      (driverRun ((code 0x10 [0, 0]).store 0xFD 0x60) [[], [.raiseLines 0x20]])
    = some (0x60, 0xEB, 0x12, 0, 0) := by decide

/-- R92: after HLT the driver stops, and the line offered later is not applied (log entry 18); a stop request comes before the
step it forestalls. -/
theorem test_driver_stops : seen (fun t => (t.pc, t.is, t.run)) (driverRun (code 0x10 [1, 0]) [[], [.raiseLines 0x20]])
      = some (0x11, 0, false)
    ∧ seen (fun t => (t.pc, t.run)) (driverRun (code 0x10 [0, 0]) [[], [.stop], []]) = some (0x11, false) := by decide

/-- R70: a byte with an inline comment, a comment line, a blank line, and seven digits. -/
theorem test_loader_lines :
    parseLine ['1', '0', '0', '1', '1', '0', '0', '1', ' ', '#', ' ', 'L'] = .ok (some 0x99)
      ∧ parseLine ['#', '1'] = .ok none ∧ parseLine [] = .ok none
      ∧ parseLine ['1', '0', '0', '1', '1', '0', '0'] = .error (.malformedToken ['1', '0', '0', '1', '1', '0', '0']) :=
  ⟨rfl, rfl, rfl, rfl⟩

/-! ### Witnesses: concrete states and operands that meet all hypotheses of a statement -/

/-- The default map, an instruction, and bytes after it. -/
theorem witness_encoding : OpcodeMap.standard.Legal
    ∧ decode OpcodeMap.standard [0x99, 3, 255, 7] = .ok (.ldi 3 255, [7])
    ∧ encode OpcodeMap.standard (.ldi 3 255) = [0x99, 3, 255] := ⟨by decide, rfl, rfl⟩

/-- UnknownOpcodesAreExactlyTheOthers, LengthFollowsTopTwoBits: no, one and two operand bytes, and 3. -/
theorem witness_lengths : decode OpcodeMap.standard [0x02] = .error (.unknownInstruction 0x02)
    ∧ decode OpcodeMap.standard [0x00] = .ok (.nop, []) ∧ decode OpcodeMap.standard [0x43, 0] = .ok (.prn 0, [])
    ∧ decode OpcodeMap.standard [0xB3, 0, 1] = .ok (.and 0 1, [])
    ∧ (0xC0 : Byte).toNat / 64 = 3 ∧ (0xFF : Byte).toNat / 64 = 3 := ⟨rfl, rfl, rfl, rfl, rfl, rfl⟩

/-- Register bytes 0 and 7 select, 8 and 255 do not. -/
theorem witness_register_bytes : Reg.ofByte 0 = some .r0 ∧ Reg.ofByte 7 = some .r7 ∧ Reg.ofByte 8 = none
    ∧ Reg.ofByte 255 = none := by decide

/-- MemoryReadAfterWrite and LoaderWritesFromAddressZero: a source of one byte, its launch, a bad line. -/
theorem witness_loader :
    parseSource [['0', '0', '0', '0', '0', '0', '0', '1']] = .ok [1]
      ∧ (∃ s, launch defaultConfig [] [['0', '0', '0', '0', '0', '0', '0', '1']] = .ok s ∧ s.load 0 = 1 ∧ s.load 1 = 0)
      ∧ ∃ e, parseLine ['2'] = .error e := ⟨rfl, ⟨_, rfl, by decide⟩, _, rfl⟩

/-- EqualMemoriesAreEqualData: two orders of two writes. -/
theorem witness_memories :
    let m := Memory.write (Memory.write [] 3 5) 0xFF 2
    let m' := Memory.write (Memory.write [] 0xFF 2) 3 5
    m.wf ∧ m'.wf ∧ ∀ a, m.read a = m'.read a := ⟨by decide, by decide, fun _ => rfl⟩

/-- AluComputesItsTable, DivModGiveQuotientAndRemainder, ZeroDivisorFaults: divisors 1, 255 and 0, the
dividend 0 too. -/
theorem witness_divisors : (1 : Byte) ≠ 0 ∧ (withR01 (code 0 []) 0xFF 1).reg .r1 ≠ 0
    ∧ (withR01 (code 0 []) 1 0xFF).reg .r1 ≠ 0 ∧ (withR01 (code 0 []) 0 0).reg .r1 = 0
    ∧ Raises (.div 0 1) (withR01 (code 0 []) 0 0) .divisionByZero := ⟨by decide, by decide, by decide, by decide, rfl⟩

/-- CmpWritesOneFlag: equal, just greater, just less. -/
theorem witness_compare : (withR01 (code 0 []) 0xFF 0xFF).reg .r0 = (withR01 (code 0 []) 0xFF 0xFF).reg .r1
    ∧ ((withR01 (code 0 []) 0xFF 0xFE).reg .r1).toNat < ((withR01 (code 0 []) 0xFF 0xFE).reg .r0).toNat
    ∧ ((withR01 (code 0 []) 0 1).reg .r0).toNat < ((withR01 (code 0 []) 0 1).reg .r1).toNat := by decide

/-- A state with `SP` and `pc` given. -/
def spPc (sp : Byte) (pc : PcWord) : State := { code 0 [] with pc := pc }.setReg .r7 sp

/-- PushStoresBelowTheStackPointer: the last legal push; StackOverflowBelowTheFloor: no room for one byte,
nor (first value too large) for nine, with the largest `pc` of each clause. -/
theorem witness_push : (spPc 1 0).cfg.stackFloor.toNat + 1 ≤ (spPc 1 0).sp.toNat
    ∧ (spPc 0 0xFD).sp.toNat < (spPc 0 0xFD).cfg.stackFloor.toNat + 1 ∧ ((spPc 0 0xFD).pc + 2).toNat ≤ 0xFF
    ∧ (spPc 8 0xFF).sp.toNat < (spPc 8 0xFF).cfg.stackFloor.toNat + 9 ∧ (spPc 8 0xFF).pc.toNat ≤ 0xFF := by decide

/-- PopLoadsFromTheStackPointer, RetPopsThePc, IretPopsTheFrame: the highest `SP` that holds enough;
StackUnderflowAtTheBase: the lowest that does not. -/
theorem witness_pop : (spPc 0xF3 0).sp.toNat + 1 ≤ 0xF4 ∧ (spPc 0xF3 0).sp.toNat < 0xF4 ∧ (spPc 0xEB 0).sp.toNat + 9 ≤ 0xF4
    ∧ 0xF4 < (spPc 0xF4 0).sp.toNat + 1 ∧ 0xF4 ≤ (spPc 0xF4 0).sp.toNat ∧ 0xF4 < (spPc 0xEC 0).sp.toNat + 9
    ∧ Reg.r6 ≠ .r7 := by decide

/-- CallPushesTheReturnAddress: the largest return address that fits, and the next one. -/
theorem witness_call : (spPc 1 0xFD).pc.toNat + 2 ≤ 0xFF
    ∧ (spPc 1 0xFD).cfg.stackFloor.toNat + 1 ≤ (spPc 1 0xFD).sp.toNat ∧ 0xFF < ((spPc 0 0xFE).pc + 2).toNat := by decide

/-- StackRoundTrips: from the empty stack. -/
theorem witness_round_trips : (spPc 0xF4 0xFD).sp.toNat ≤ 0xF4 ∧ (spPc 0xF4 0xFD).pc.toNat + 2 ≤ 0xFF
    ∧ (spPc 0xF4 0xFD).cfg.stackFloor.toNat + 1 ≤ (spPc 0xF4 0xFD).sp.toNat
    ∧ (∃ t, exec (.push 2) (spPc 0xF4 0xFD) = .next t)
    ∧ ∃ t u : State, exec (.call 2) (spPc 0xF4 0xFD) = .next t ∧ u.sp = t.sp ∧ u.load t.sp = t.load t.sp :=
  ⟨by decide, by decide, by decide, ⟨_, rfl⟩, _, _, rfl, rfl, rfl⟩

/-- IntSetsOnePendingBit: 7 and 8. -/
theorem witness_int : ((withR01 (code 0 []) 7 0).reg .r0).toNat ≤ 7 ∧ 7 < ((withR01 (code 0 []) 8 0).reg .r0).toNat := by decide

/-- BadRegisterOperandFaults: regA first, then regB. -/
theorem witness_bad_operand : (Instr.add 8 9).registerOperands.find? (fun b => decide (7 < b.toNat)) = some 8
    ∧ (Instr.add 7 8).registerOperands.find? (fun b => decide (7 < b.toNat)) = some 8
    ∧ (Instr.jeq 255).registerOperands.find? (fun b => decide (7 < b.toNat)) = some 255 := by decide

/-- The frames: each kind of instruction completes. -/
theorem witness_frames :
    (registerOnly (.inc 7) = some 7 ∧ ∃ t, exec (.inc 7) (spPc 8 0) = .next t ∧ t.fault = none)
      ∧ (∃ t, exec (.cmp 0 1) (spPc 8 0) = .next t ∧ t.fault = none)
      ∧ (∃ t, exec (.prn 0) (spPc 8 0) = .next t ∧ t.fault = none)
      ∧ (∃ t, exec (.pra 0) (spPc 8 0) = .next t ∧ t.fault = none)
      ∧ (isJump (.jlt 0) = true ∧ ∃ t, exec (.jlt 0) (spPc 8 0) = .next t ∧ t.fault = none)
      ∧ (Reg.ofByte 7 = some .r7 ∧ ∃ t, exec (.st 7 1) (spPc 8 0) = .next t ∧ t.fault = none)
      ∧ (∃ t, exec (.push 7) (spPc 1 0) = .next t ∧ t.fault = none)
      ∧ (∃ t, exec (.call 7) (spPc 1 0) = .next t ∧ t.fault = none)
      ∧ (∃ t, exec (.pop 7) (spPc 0xF3 0) = .next t ∧ t.fault = none)
      ∧ (∃ t, exec .ret (spPc 0xF3 0) = .next t ∧ t.fault = none)
      ∧ (∃ t, exec .iret (spPc 0xEB 0) = .next t ∧ t.fault = none)
      ∧ (∃ t, exec (.int 0) (spPc 8 0) = .next t ∧ t.fault = none)
      ∧ (∃ t, exec .nop (spPc 8 0) = .next t ∧ t.fault = none)
      ∧ ∃ t, exec .hlt (spPc 8 0) = .next t ∧ t.fault = none :=
  ⟨⟨rfl, _, rfl, rfl⟩, ⟨_, rfl, rfl⟩, ⟨_, rfl, rfl⟩, ⟨_, rfl, rfl⟩, ⟨rfl, _, rfl, rfl⟩, ⟨rfl, _, rfl, rfl⟩, ⟨_, rfl, rfl⟩,
    ⟨_, rfl, rfl⟩, ⟨_, rfl, rfl⟩, ⟨_, rfl, rfl⟩, ⟨_, rfl, rfl⟩, ⟨_, rfl, rfl⟩, ⟨_, rfl, rfl⟩, _, rfl, rfl⟩

/-- WhoWritesTheSpecialRegisters, PcAdvanceOrTarget, InstructionsDoNotReadPendingMaskOrOutput: one
instruction of each column of R65, from a state without a fault. -/
theorem witness_whole_machine : (spPc 8 0).fault = none
    ∧ (Instr.int 0).mnemonic.setsPc = .no ∧ (∃ t, exec (.int 0) (spPc 8 0) = .next t ∧ t.fault = (spPc 8 0).fault)
    ∧ (Instr.jeq 0).mnemonic.setsPc = .whenTaken
    ∧ (∃ t, exec (.jeq 0) (spPc 8 0) = .next t ∧ t.fault = (spPc 8 0).fault)
    ∧ (Instr.jmp 0).mnemonic.setsPc = .yes ∧ (∃ t, exec (.jmp 0) (spPc 8 0) = .next t ∧ t.fault = (spPc 8 0).fault)
    ∧ ∃ u, exec (.int 0) { spPc 8 0 with is := 0xFF, im := 0, out := [⟨.dec, 1⟩] } = .next u :=
  ⟨rfl, rfl, ⟨_, rfl, rfl⟩, rfl, ⟨_, rfl, rfl⟩, rfl, ⟨_, rfl, rfl⟩, _, rfl⟩

/-- StoppedMachineStaysStopped: stopped without and with a fault. -/
theorem witness_stopped : ({ code 0 [0] with run := false } : State).run = false
    ∧ ((code 0 [0]).latch .divisionByZero false).fault ≠ none := by decide

/-- StepRunsTheDecodedInstruction and StepRunsTheInstructionInMemory: LDI at the last address where it
fits. -/
theorem witness_step : (code 0xFD [0x99, 3, 5]).run = true ∧ (code 0xFD [0x99, 3, 5]).fault = none
    ∧ (code 0xFD [0x99, 3, 5]).cfg.opcodeMap.Legal
    ∧ decode (code 0xFD [0x99, 3, 5]).cfg.opcodeMap (code 0xFD [0x99, 3, 5]).fetchWindow = .ok (.ldi 3 5, [])
    ∧ (code 0xFD [0x99, 3, 5]).pc.toNat + (encode (code 0xFD [0x99, 3, 5]).cfg.opcodeMap (.ldi 3 5)).length ≤ 256
    ∧ encode (code 0xFD [0x99, 3, 5]).cfg.opcodeMap (.ldi 3 5)
        = [byteAt (code 0xFD [0x99, 3, 5]) 0, byteAt (code 0xFD [0x99, 3, 5]) 1, byteAt (code 0xFD [0x99, 3, 5]) 2] :=
  ⟨rfl, rfl, by decide, rfl, by decide, by decide⟩

/-- FetchPhasesInOrder: `pc` = 0x100; an unknown byte at 0xFF; operands that end at 0x100; that end at 0xFF. -/
theorem witness_fetch : 0xFF < (code 0x100 []).pc.toNat
    ∧ ((code 0xFF [0xFF]).pc.toNat ≤ 0xFF ∧ ∀ n ∈ Mnemonic.all, (code 0xFF [0xFF]).cfg.opcodeMap.byteOf n ≠ byteAt (code 0xFF [0xFF]) 0)
    ∧ ((code 0xFE [0x99]).cfg.opcodeMap.byteOf .ldi = byteAt (code 0xFE [0x99]) 0
      ∧ 0xFF < (code 0xFE [0x99]).pc.toNat + operandCount (byteAt (code 0xFE [0x99]) 0))
    ∧ ((code 0xFD [0x99]).cfg.opcodeMap.byteOf .ldi = byteAt (code 0xFD [0x99]) 0
      ∧ (code 0xFD [0x99]).pc.toNat + operandCount (byteAt (code 0xFD [0x99]) 0) ≤ 0xFF) := by decide

/-- StepIsAtomicUnderFaults and WaysARunEnds: a fault of the instruction, a fault of the entry, HLT, and a
step that goes on. -/
theorem witness_step_faults :
    (∃ t, step (code 0 [0xAB, 0, 1]) = .next t ∧ t.runEnd = some (.instructionFault ⟨.divisionByZero, 0, false⟩))
      ∧ (∃ t, step ({ code 0 [0] with is := 1 }.setReg .r7 8) = .next t
        ∧ t.runEnd = some (.entryFault ⟨.stackOverflow 8, 1, true⟩))
      ∧ (∃ t, step (code 0 [1]) = .next t ∧ t.runEnd = some .clean)
      ∧ ∃ t, step (code 0 [0]) = .next t ∧ t.runEnd = none :=
  ⟨⟨_, rfl, by decide⟩, ⟨_, rfl, by decide⟩, ⟨_, rfl, by decide⟩, _, rfl, by decide⟩

/-- LowestDeliverableLineIsTaken: lines 0 and 7 pending; 7 alone; and none enabled. -/
theorem witness_lines :
    (∀ k : Line, ¬((0xFF : Byte).getLsbD k.val = true ∧ (0x00 : Byte).getLsbD k.val = true))
      ∧ ((0x81 : Byte).getLsbD (0 : Line).val = true ∧ (0xFF : Byte).getLsbD (0 : Line).val = true
        ∧ ∀ k : Line, k < 0 → ¬((0x81 : Byte).getLsbD k.val = true ∧ (0xFF : Byte).getLsbD k.val = true))
      ∧ (0x80 : Byte).getLsbD (7 : Line).val = true ∧ (0xFF : Byte).getLsbD (7 : Line).val = true
        ∧ ∀ k : Line, k < 7 → ¬((0x80 : Byte).getLsbD k.val = true ∧ (0xFF : Byte).getLsbD k.val = true) := by decide

/-- EntrySavesTheFrame and EntryGuardsInOrder: the largest `pc` with the least `SP`; then each guard. -/
theorem witness_entry : (spPc 9 0xFF).pc.toNat ≤ 0xFF ∧ (spPc 9 0xFF).cfg.stackFloor.toNat + 9 ≤ (spPc 9 0xFF).sp.toNat
    ∧ 0xFF < (spPc 8 0x100).pc.toNat
    ∧ (spPc 8 0xFF).pc.toNat ≤ 0xFF ∧ (spPc 8 0xFF).sp.toNat < (spPc 8 0xFF).cfg.stackFloor.toNat + 9 := by decide

/-- EntryThenIretRestores: a handler that returns at once. -/
theorem witness_entry_iret : (spPc 0xF4 0xFF).pc.toNat ≤ 0xFF
    ∧ (spPc 0xF4 0xFF).cfg.stackFloor.toNat + 9 ≤ (spPc 0xF4 0xFF).sp.toNat ∧ (spPc 0xF4 0xFF).sp.toNat ≤ 0xF4
    ∧ ∃ t u : State, takeInterrupt 3 (spPc 0xF4 0xFF) = .next t ∧ u.sp = t.sp ∧ u.imSaved = t.imSaved
      ∧ ∀ a : Byte, t.sp.toNat ≤ a.toNat → a.toNat < (spPc 0xF4 0xFF).sp.toNat → u.load a = t.load a :=
  ⟨by decide, by decide, by decide, _, _, rfl, rfl, rfl, fun _ _ _ => rfl⟩

/-- InterruptsNeverNest: an entry that completes; a step with the mask zero. -/
theorem witness_never_nest : (∃ t, takeInterrupt 3 (spPc 0xF4 0xFF) = .next t ∧ t.fault = (spPc 0xF4 0xFF).fault)
    ∧ ∃ t, step { code 0 [0] with im := 0, is := 0xFF } = .next t ∧ fetch { code 0 [0] with im := 0, is := 0xFF } = .ok .nop :=
  ⟨⟨_, rfl, rfl⟩, _, rfl, rfl⟩

/-- HltStillEntersADeliverableInterrupt: HLT at 0xFE with the least `SP`. -/
theorem witness_hlt_entry :
    let s := { code 0xFE [1] with is := 0x80 }.setReg .r7 9
    s.run = true ∧ s.fault = none ∧ s.pc.toNat ≤ 0xFE ∧ s.cfg.stackFloor.toNat + 9 ≤ s.sp.toNat
      ∧ decode s.cfg.opcodeMap s.fetchWindow = .ok (.hlt, [0]) ∧ s.is &&& s.im ≠ 0 :=
  ⟨rfl, rfl, by decide, by decide, rfl, by decide⟩

/-- PendingBitsClearedOnlyByTheirEntry: line 7 is cleared by its entry. -/
theorem witness_pending : (0x80 : Byte).getLsbD (7 : Line).val = true
    ∧ ∃ t, step { code 0 [0] with is := 0x80 } = .next t ∧ t.is.getLsbD (7 : Line).val = false :=
  ⟨by decide, _, rfl, by decide⟩

/-- Legal parameters and canonical memories: the default, and the highest floor with bytes at both ends. -/
theorem witness_legal : defaultConfig.Legal ∧ Memory.wf [] ∧ Config.Legal ⟨OpcodeMap.standard, 0x00, 0xF3⟩
    ∧ Memory.wf [(0, 1), (255, 2)] := by decide

/-- StepKeepsTheInvariant, DriverRunKeepsTheInvariant, ReachableStatesAreSafe: a state with the invariant, a
step from it, a cleanly stopped reachable state, and a reachable state with a latched fault. -/
theorem witness_invariant : (code 0 [1]).Inv ∧ (∃ t, step (code 0 [1]) = .next t)
    ∧ (∃ s, Reachable defaultConfig [(0, 1)] s ∧ s.run = false ∧ s.fault = none)
    ∧ ∃ s, Reachable defaultConfig [(0, 2)] s ∧ s.fault = some ⟨.unknownInstruction 2, 0, false⟩ :=
  ⟨⟨by decide, by decide, by decide, nofun, nofun, rfl, .inl rfl⟩, ⟨_, rfl⟩,
    ⟨_, .step (t := { State.resetWith defaultConfig [(0, 1)] with pc := 1, run := false }) .reset rfl, rfl, rfl⟩,
    _, .step (t := (State.resetWith defaultConfig [(0, 2)]).latch (.unknownInstruction 2) false) .reset rfl, rfl⟩

/-- DriverStopsExactlyWhenRunIsZero: a run that HLT ended, a run that a stop request ends, and one that goes
on. -/
theorem witness_driver : (∃ t, driverRun (code 0 [1]) [[]] = .next t ∧ t.run = false)
    ∧ ∃ t, driverRun (code 0 [0]) [[]] = .next t ∧ t.run = true ∧ (applyEvents t [.stop]).run = false
      ∧ (applyEvents t [.raiseLines 0xFF]).run = true := ⟨⟨_, rfl, rfl⟩, _, rfl, rfl, rfl, rfl⟩

/-- WaysARunEnds, between steps: with a stop request among the events, and without. -/
theorem witness_stop_request : (code 0 [0]).run = true ∧ (code 0 [0]).fault = none
    ∧ EnvEvent.stop ∈ [EnvEvent.raiseLines 1, .stop, .raiseLines 2] ∧ EnvEvent.stop ∉ [EnvEvent.raiseLines 1] := by decide

/-- EnvironmentTouchesOnlyPendingAndRun: both events. -/
theorem witness_events : (applyEvent (code 0 []) (.raiseLines 0x20)).is = 0x20 ∧ (applyEvent (code 0 []) .stop).run = false := by
  decide

end Sys2Proof.Tests
end

section
/-! SUPPORT. Reset, the loader and a launch, as seen by a read of memory; then the statement of R41. -/

namespace Sys2Proof.Machine

/-- Reset writes no byte of memory: a read gives `INITIAL_MEMORY` (R41). -/
@[simp] theorem State.load_resetWith (c : Config) (image : Memory) (a : Byte) :
    (State.resetWith c image).load a = image.read a := rfl

/-- A loader's image holds the source's bytes from address 0 up and the former bytes above them (R70). -/
theorem Memory.read_writeBytes_zero (m : Memory) (vs : List Byte) (h : vs.length ≤ 256) (a : Byte) :
    (m.writeBytes 0 vs).read a = vs.getD a.toNat (m.read a) := by
  rw [Memory.read_writeBytes m 0 vs (by omega), if_pos (Nat.zero_le _), Nat.sub_zero]

/-- All that a launch can do (R190): it succeeds exactly on a source that parses to no more bytes than memory
holds, and answers the reset state over the written image. -/
theorem launch_eq_ok_iff {c : Config} {base : Memory} {source : List (List Char)} {s : State} :
    launch c base source = .ok s ↔
      ∃ vs, parseSource source = .ok vs ∧ vs.length ≤ 256
        ∧ s = State.resetWith c (base.writeBytes 0 vs) := by
  unfold launch loadImage
  cases parseSource source with
  | error e => simp [Except.map]
  | ok vs =>
    by_cases hlen : vs.length ≤ 256
    · simp [Except.map, hlen, eq_comm]
    · simp [Except.map, hlen]

/-- Settles O8: a store by read after write, `INITIAL_MEMORY` because reset keeps memory, and the loader's
bytes because a launch is the reset state over the written image. -/
theorem memoryReadAfterWrite : Obligations.MemoryReadAfterWrite := by
  refine ⟨fun s a b v => State.load_store s a v b, State.load_resetWith, ?_⟩
  intro c base source vs s a hparse hlaunch
  obtain ⟨ws, hws, hlen, rfl⟩ := launch_eq_ok_iff.mp hlaunch
  obtain rfl : vs = ws := Except.ok.inj (hparse.symm.trans hws)
  rw [State.load_resetWith, Memory.read_writeBytes_zero base vs hlen]

end Sys2Proof.Machine
end

section
/-! SUPPORT. What an accepted opcode says of the bytes read; then the statement of R61. -/

namespace Sys2Proof

/-- No format has more than two operand bytes (R60, column "Count" of R65). -/
theorem Mnemonic.count_le_two (n : Mnemonic) : n.count ≤ 2 := by cases n <;> decide

/-- Under a legal map the top two bits of a mnemonic's byte are never 3 (R61). -/
theorem OpcodeMap.Legal.byteOf_top_le_two {m : OpcodeMap} (h : m.Legal) (n : Mnemonic) :
    (m.byteOf n).toNat / 64 ≤ 2 := by
  rw [← operandCount_eq, h.count n]
  exact n.count_le_two

/-- A decode that succeeds found the opcode in the map and took the operand bytes its top two bits
announce, all of them present. -/
theorem decode_cons_ok {m : OpcodeMap} {op : Byte} {tail rest : List Byte} {i : Instr}
    (h : decode m (op :: tail) = .ok (i, rest)) :
    m.byteOf i.mnemonic = op ∧ operandCount op ≤ tail.length ∧ rest = tail.drop (operandCount op) := by
  rcases Machine.decode_cases m (op :: tail) with
    ⟨hnil, -⟩ | ⟨op', tail', hbytes, ⟨e, -⟩ | ⟨n, hn, ⟨-, e⟩ | ⟨hlen, e⟩⟩⟩
  · cases hnil
  · cases e.symm.trans h
  · cases e.symm.trans h
  · cases hbytes
    cases e.symm.trans h
    exact ⟨by rw [assemble_mnemonic, hn], hlen, rfl⟩

/-- A byte that stands for no mnemonic is unknown whatever follows it: no operand byte is looked at (R67). -/
theorem decode_cons_of_unmapped {m : OpcodeMap} {op : Byte} (tail : List Byte) (h : ∀ n, m.byteOf n ≠ op) :
    decode m (op :: tail) = .error (.unknownInstruction op) := by
  rcases decodeOpcode_cases m op with ⟨e, -⟩ | ⟨n, hn, -⟩
  · rw [decode, e]
  · exact absurd hn (h n)

/-- Settles O4: an accepted opcode is a mnemonic's byte, so its top two bits are at most 2 and count the
operand bytes taken; a byte whose top two bits are 3 stands for no mnemonic. -/
theorem lengthFollowsTopTwoBits : Obligations.LengthFollowsTopTwoBits := by
  intro m op tail hm
  constructor
  · intro i rest hdecode
    obtain ⟨rfl, hlen, rfl⟩ := decode_cons_ok hdecode
    rw [operandCount_eq] at hlen ⊢
    refine ⟨?_, hm.byteOf_top_le_two i.mnemonic⟩
    rw [List.length_cons, List.length_drop]
    omega
  · intro htop
    refine decode_cons_of_unmapped tail ?_
    rintro n rfl
    have := hm.byteOf_top_le_two n
    omega

end Sys2Proof
end

section
/-! SUPPORT. Decoding a mnemonic's own byte, the bytes a fetch reads, and the three phases of a fetch; then the
statement of R82 to R84. -/

namespace Sys2Proof

/-- Assembling looks at the operand bytes of the format only (R62). -/
theorem assemble_congr {n : Mnemonic} {a a' b b' : Byte} (ha : 1 ≤ n.count → a = a')
    (hb : 2 ≤ n.count → b = b') : assemble n a b = assemble n a' b' := by
  have htake : [a, b].take n.count = [a', b'].take n.count := by
    have hle := n.count_le_two
    interval_cases n.count
    · rfl
    · rw [ha le_rfl]; rfl
    · rw [ha (by decide), hb le_rfl]
  rw [← assemble_operands (assemble n a b) [], ← assemble_operands (assemble n a' b') []]
  simp only [assemble_mnemonic, assemble_operands_eq, htake]

/-- Under a legal map a mnemonic's byte with too few bytes after it is truncated (R61). -/
theorem OpcodeMap.Legal.decode_byteOf_truncated {m : OpcodeMap} (h : m.Legal) {n : Mnemonic} {rest : List Byte}
    (hlen : rest.length < n.count) : decode m (m.byteOf n :: rest) = .error (.truncated n.count) := by
  rw [decode, h.decodeOpcode_byteOf n]
  exact if_pos hlen

/-- Under a legal map a mnemonic's byte with enough bytes after it is that mnemonic's instruction (R61, R62). -/
theorem OpcodeMap.Legal.decode_byteOf_complete {m : OpcodeMap} (h : m.Legal) {n : Mnemonic} {rest : List Byte}
    (hlen : n.count ≤ rest.length) : decode m (m.byteOf n :: rest)
      = .ok (assemble n (rest.getD 0 0) (rest.getD 1 0), rest.drop n.count) := by
  rw [decode, h.decodeOpcode_byteOf n]
  exact if_neg (Nat.not_lt.mpr hlen)

namespace Machine

open Claims

/-- The bytes a fetch finds behind the opcode: those at `pc + 1` and `pc + 2` that exist (R84). -/
def State.operandWindow (s : State) : List Byte :=
  (List.range (min 2 (0xFF - s.pc.toNat))).map fun k => byteAt s (k + 1)

theorem State.operandWindow_length (s : State) : s.operandWindow.length = min 2 (0xFF - s.pc.toNat) := by
  simp [State.operandWindow]

theorem State.operandWindow_getD {s : State} {k : Nat} (h : k < s.operandWindow.length) :
    s.operandWindow.getD k 0 = byteAt s (k + 1) := by
  rw [← List.getElem_eq_getD (h := h)]
  simp [State.operandWindow]

/-- Past 0xFF there is nothing to fetch (R82). -/
theorem State.fetchWindow_of_pc_out {s : State} (h : 0xFF < s.pc.toNat) : s.fetchWindow = [] := by
  rw [State.fetchWindow_eq, if_pos h]

/-- Inside memory the window is the opcode byte and the operand bytes behind it. -/
theorem State.fetchWindow_of_pc_in {s : State} (h : s.pc.toNat ≤ 0xFF) :
    s.fetchWindow = byteAt s 0 :: s.operandWindow := by
  rw [State.fetchWindow_eq, if_neg (Nat.not_lt.mpr h), State.operandWindow]
  split
  · next hpc => simp [byteAt, hpc]
  · split
    · next hpc => simp [byteAt, hpc]
    · have : min 2 (0xFF - s.pc.toNat) = 2 := by omega
      simp [byteAt, this, List.range_succ]

/-- Phase 1 fails past 0xFF (R82). -/
theorem fetch_of_pc_out {s : State} (h : 0xFF < s.pc.toNat) : fetch s = .error (.memoryOutOfBounds s.pc) := by
  rw [fetch, State.fetchWindow_of_pc_out h]
  rfl

/-- Phase 2 fails on an opcode byte of no instruction, whatever bytes follow (R83). -/
theorem fetch_of_unmapped {s : State} (hpc : s.pc.toNat ≤ 0xFF)
    (hop : ∀ n, s.cfg.opcodeMap.byteOf n ≠ byteAt s 0) : fetch s = .error (.unknownInstruction (byteAt s 0)) := by
  rw [fetch, State.fetchWindow_of_pc_in hpc, decode_cons_of_unmapped _ hop]

/-- Phase 3 fails when the operands of a known opcode end past 0xFF (R84). -/
theorem fetch_of_operands_out {s : State} {n : Mnemonic} (hm : s.cfg.opcodeMap.Legal) (hpc : s.pc.toNat ≤ 0xFF)
    (hop : s.cfg.opcodeMap.byteOf n = byteAt s 0) (hout : 0xFF < s.pc.toNat + n.count) :
    fetch s = .error (.memoryOutOfBounds (s.pc + BitVec.ofNat 9 n.count)) := by
  have hlen : s.operandWindow.length < n.count := by
    have := n.count_le_two
    rw [State.operandWindow_length]
    omega
  rw [fetch, State.fetchWindow_of_pc_in hpc, ← hop, hm.decode_byteOf_truncated hlen]

/-- A known opcode whose operands all exist is fetched with the bytes at `pc + 1` and `pc + 2` (R84). -/
theorem fetch_of_operands_in {s : State} {n : Mnemonic} (hm : s.cfg.opcodeMap.Legal)
    (hop : s.cfg.opcodeMap.byteOf n = byteAt s 0) (hin : s.pc.toNat + n.count ≤ 0xFF) :
    fetch s = .ok (assemble n (byteAt s 1) (byteAt s 2)) := by
  have hlen : n.count ≤ s.operandWindow.length := by
    have := n.count_le_two
    rw [State.operandWindow_length]
    omega
  rw [fetch, State.fetchWindow_of_pc_in (by omega), ← hop, hm.decode_byteOf_complete hlen]
  exact congrArg Except.ok (assemble_congr (fun h => State.operandWindow_getD (h.trans hlen))
    fun h => State.operandWindow_getD (h.trans hlen))

/-- Settles O40: one lemma on `fetch` for each phase; a failed fetch latches its fault, a fetched instruction
is executed. -/
theorem fetchPhasesInOrder : Obligations.FetchPhasesInOrder := by
  intro s hm hrun hfault
  refine ⟨fun hpc => step_of_fetch_error hrun hfault (fetch_of_pc_out hpc),
    fun hpc hop => step_of_fetch_error hrun hfault (fetch_of_unmapped hpc hop), ?_⟩
  intro n hpc hop
  have hcount : operandCount (byteAt s 0) = n.count := by rw [← hop, hm.count n]
  rw [hcount]
  constructor
  · intro hout
    exact step_of_fetch_error hrun hfault (fetch_of_operands_out hm hpc hop hout)
  · intro hin
    have hfetch := fetch_of_operands_in hm hop hin
    exact ⟨hfetch, step_of_fetch_ok hrun hfault hfetch⟩

end Machine

end Sys2Proof
end

section
/-! SUPPORT. Where the fault record in the state after a step comes from; then the statement of R88 and R175. -/

namespace Sys2Proof.Machine

/-- An instruction that completes leaves `FAULT` as it was. -/
theorem Completed.fault_eq {i : Instr} {s t : State} (h : Completed i s t) : t.fault = s.fault := by
  cases i with
  | st a b | ld a b =>
    obtain ⟨r, q, -, -, rfl⟩ := h
    rfl
  | ret | iret =>
    obtain ⟨-, rfl⟩ := h
    rfl
  | call a =>
    obtain ⟨r, -, -, -, rfl⟩ := h
    rfl
  | push a | pop a | int a =>
    obtain ⟨r, -, -, rfl⟩ := h
    rfl
  | ldi a imm | prn a | pra a =>
    obtain ⟨r, -, rfl⟩ := h
    rfl
  | jmp a | jeq a | jne a | jgt a | jlt a => rcases h with ⟨r, -, rfl⟩ | ⟨-, rfl⟩ <;> rfl
  | nop | hlt =>
    obtain rfl := h
    rfl
  | cmp a b =>
    obtain ⟨v, rfl⟩ := h
    rfl
  | _ =>
    obtain ⟨r, v, -, rfl⟩ := h
    rfl

@[simp] theorem State.entered_fault (n : Line) (s : State) : (s.entered n).fault = s.fault := by
  rw [State.entered_eq]

/-- What the record of a latched fault tells: the state it was latched over, that state's `pc`, and where it
was raised (R169). -/
theorem State.latch_record {s : State} {f : Fault} {e : Bool} {r : FaultRecord}
    (h : (s.latch f e).fault = some r) :
    s.latch f e = { s with fault := some r, run := false } ∧ r.pc = s.pc ∧ r.inEntry = e := by
  obtain rfl := Option.some.inj h
  exact ⟨rfl, rfl, rfl⟩

/-- A record an instruction leaves in a machine without one is latched over the state it started in (R88). -/
theorem exec_fault_record {i : Instr} {s u : State} {r : FaultRecord} (hfault : s.fault = none)
    (h : exec i s = .next u) (hr : u.fault = some r) :
    u = { s with fault := some r, run := false } ∧ r.pc = s.pc ∧ r.inEntry = false := by
  rcases exec_cases h with hc | ⟨f, rfl⟩
  · rw [hc.fault_eq, hfault] at hr
    cases hr
  · exact State.latch_record hr

/-- A record an interrupt entry leaves in a machine without one is latched over the state it started in (R175). -/
theorem takeInterrupt_fault_record {n : Line} {u t : State} {r : FaultRecord} (hfault : u.fault = none)
    (h : takeInterrupt n u = .next t) (hr : t.fault = some r) :
    t = { u with fault := some r, run := false } ∧ r.pc = u.pc ∧ r.inEntry = true := by
  rcases takeInterrupt_cases h with ⟨-, -, rfl⟩ | ⟨f, rfl⟩
  · rw [State.entered_fault, hfault] at hr
    cases hr
  · exact State.latch_record hr

/-- The two sources of the record a step leaves: the fetch or the instruction, latched over the state before
the step, or the interrupt entry, latched over the state the completed instruction left. -/
theorem step_fault_record {s t : State} {r : FaultRecord} (hrun : s.run = true) (hfault : s.fault = none)
    (h : step s = .next t) (hr : t.fault = some r) :
    (t = { s with fault := some r, run := false } ∧ r.pc = s.pc ∧ r.inEntry = false)
      ∨ ∃ i u, fetch s = .ok i ∧ exec i s = .next u ∧ u.fault = none
        ∧ t = { u with fault := some r, run := false } ∧ r.pc = u.pc ∧ r.inEntry = true := by
  rcases step_cases h with ⟨-, rfl⟩ | ⟨-, f, -, rfl⟩ | ⟨-, i, u, hfetch, hexec, hu⟩
  · cases hfault.symm.trans hr
  · exact .inl (State.latch_record hr)
  · rcases hu with ⟨-, rfl⟩ | ⟨hnone, -, rfl⟩ | ⟨hnone, n, -, htake⟩
    · exact .inl (exec_fault_record hfault hexec hr)
    · cases hnone.symm.trans hr
    · exact .inr ⟨i, u, hfetch, hexec, hnone, takeInterrupt_fault_record hnone htake hr⟩

/-- Settles O42: `step_fault_record`, its two cases told apart by the record's `inEntry`. -/
theorem stepIsAtomicUnderFaults : Obligations.StepIsAtomicUnderFaults := by
  intro s t r hrun hfault hstep hr
  rcases step_fault_record hrun hfault hstep hr with
    ⟨ht, hpc, hentry⟩ | ⟨i, u, hfetch, hexec, hnone, ht, hpc, hentry⟩
  · exact ⟨fun _ => ⟨ht, hpc⟩, fun h => absurd (hentry.symm.trans h) Bool.false_ne_true⟩
  · exact ⟨fun h => absurd (hentry.symm.trans h) Bool.false_ne_true.symm,
      fun _ => ⟨i, u, hfetch, hexec, hnone, ht, hpc⟩⟩

end Sys2Proof.Machine
end

section
/-! SUPPORT. The driver's run cut in two; then the statement of R92. -/

namespace Sys2Proof.Machine

/-- How a driver's run over one more list of events can answer: it had ended, a stop request ends it, or a step
is taken and the run goes on. -/
theorem driverRun_cons_cases {s t : State} {es : List EnvEvent} {rest : List (List EnvEvent)}
    (h : driverRun s (es :: rest) = .next t) :
    (s.run = false ∧ t = s)
      ∨ (s.run = true ∧ (applyEvents s es).run = false ∧ t = applyEvents s es)
      ∨ (s.run = true ∧ (applyEvents s es).run = true
        ∧ ∃ u, step (applyEvents s es) = .next u ∧ driverRun u rest = .next t) := by
  rcases Bool.eq_false_or_eq_true s.run with hs | hs
  · rcases Bool.eq_false_or_eq_true (applyEvents s es).run with he | he
    · refine .inr (.inr ⟨hs, he, ?_⟩)
      cases hstep : step (applyEvents s es) with
      | next u => exact ⟨u, rfl, by rwa [driverRun_cons_step hs he hstep] at h⟩
      | fault f => simp [driverRun, hs, he, hstep] at h
      | refused r => simp [driverRun, hs, he, hstep] at h
    · rw [driverRun_cons_stop hs he] at h
      exact .inr (.inl ⟨hs, he, (Host.Outcome.next.inj h).symm⟩)
  · rw [driverRun_stopped hs] at h
    exact .inl ⟨hs, (Host.Outcome.next.inj h).symm⟩

/-- A run under `a` and then `b` is the run under `b` from where `a` led. -/
theorem driverRun_append {s t : State} {a : List (List EnvEvent)} (h : driverRun s a = .next t)
    (b : List (List EnvEvent)) : driverRun s (a ++ b) = driverRun t b := by
  induction a generalizing s with
  | nil =>
    obtain rfl := Host.Outcome.next.inj h
    rfl
  | cons es rest ih =>
    rw [List.cons_append]
    rcases driverRun_cons_cases h with ⟨hs, rfl⟩ | ⟨hs, he, rfl⟩ | ⟨hs, he, u, hstep, hrest⟩
    · rw [driverRun_stopped hs, driverRun_stopped hs]
    · rw [driverRun_cons_stop hs he, driverRun_stopped he]
    · rw [driverRun_cons_step hs he hstep, ih hrest]

/-- A driver with one list of events left, and nothing that stops it, answers what the step answers. -/
theorem driverRun_singleton {s : State} {es : List EnvEvent} (hs : s.run = true)
    (he : (applyEvents s es).run = true) : driverRun s [es] = step (applyEvents s es) := by
  cases hstep : step (applyEvents s es) with
  | next u => rw [driverRun_cons_step hs he hstep, driverRun]
  | fault f => simp [driverRun, hs, he, hstep]
  | refused r => simp [driverRun, hs, he, hstep]

/-- Settles O59: a run is cut at the end of `a`; from there the driver has stopped, is stopped by an event, or
takes the next step. -/
theorem driverStopsExactlyWhenRunIsZero : Obligations.DriverStopsExactlyWhenRunIsZero := by
  intro s t a b es h
  have cut := driverRun_append h
  exact ⟨cut b, fun ht => (cut b).trans (driverRun_stopped ht b),
    fun ht he => (cut (es :: b)).trans (driverRun_cons_stop ht he b),
    fun ht he => (cut [es]).trans (driverRun_singleton ht he)⟩

end Sys2Proof.Machine
end

section
/-! SUPPORT. What the ALU computes, one equation per operation, and the three bits CMP packs; then the
statement of R110, R123 and R124. -/

namespace Sys2Proof.Machine

/-- A narrowed integer is any natural number congruent to it modulo 256 (R8). -/
theorem narrow_eq_ofNat {z : Int} {n : Nat} (h : z % 256 = n % 256) : narrow z = BitVec.ofNat 8 n := by
  apply BitVec.eq_of_toNat_eq
  rw [narrow, BitVec.toNat_ofInt, BitVec.toNat_ofNat]
  omega

/-- The exact sum is narrowed (R111). -/
theorem aluCompute_add (a b : Byte) :
    aluCompute .add a b = aluResult (BitVec.ofNat 8 ((a.toNat + b.toNat) % 256)) :=
  congrArg aluResult (narrow_eq_ofNat (by omega))

/-- The exact difference may be negative; 256 more is congruent to it and natural (R112). -/
theorem aluCompute_sub (a b : Byte) :
    aluCompute .sub a b = aluResult (BitVec.ofNat 8 ((a.toNat + 256 - b.toNat) % 256)) :=
  congrArg aluResult (narrow_eq_ofNat (by have := b.isLt; omega))

/-- The exact product is narrowed (R113). -/
theorem aluCompute_mul (a b : Byte) :
    aluCompute .mul a b = aluResult (BitVec.ofNat 8 (a.toNat * b.toNat % 256)) :=
  congrArg aluResult (narrow_eq_ofNat (by rw [← Int.natCast_mul]; omega))

/-- The floor quotient by a divisor that is not zero (R114). -/
theorem aluCompute_div {b : Byte} (a : Byte) (hb : b ≠ 0) :
    aluCompute .div a b = aluResult (BitVec.ofNat 8 (a.toNat / b.toNat)) :=
  (if_neg (BitVec.toNat_ne_iff_ne.mpr hb)).trans (congrArg aluResult (narrow_natCast _))

/-- The remainder by a divisor that is not zero (R115). -/
theorem aluCompute_mod {b : Byte} (a : Byte) (hb : b ≠ 0) :
    aluCompute .mod a b = aluResult (BitVec.ofNat 8 (a.toNat % b.toNat)) :=
  (if_neg (BitVec.toNat_ne_iff_ne.mpr hb)).trans (congrArg aluResult (narrow_natCast _))

/-- The divisor is looked at before the operation (R114). -/
theorem aluCompute_div_zero (a : Byte) : aluCompute .div a 0 = .error .divisionByZero := rfl

/-- The divisor is looked at before the operation (R115). -/
theorem aluCompute_mod_zero (a : Byte) : aluCompute .mod a 0 = .error .divisionByZero := rfl

/-- 255 goes to 0; operand b is ignored (R119). -/
theorem aluCompute_inc (a b : Byte) :
    aluCompute .inc a b = aluResult (BitVec.ofNat 8 ((a.toNat + 1) % 256)) :=
  congrArg aluResult (narrow_eq_ofNat (by omega))

/-- 0 goes to 255, which is congruent to -1; operand b is ignored (R120). -/
theorem aluCompute_dec (a b : Byte) :
    aluCompute .dec a b = aluResult (BitVec.ofNat 8 ((a.toNat + 255) % 256)) :=
  congrArg aluResult (narrow_eq_ofNat (by omega))

/-- The complement of all eight bits is the distance to 255; operand b is ignored (R121). -/
theorem aluCompute_not (a b : Byte) : aluCompute .not a b = aluResult (BitVec.ofNat 8 (255 - a.toNat)) := by
  refine congrArg aluResult (BitVec.eq_of_toNat_eq ?_)
  rw [BitVec.toNat_not, BitVec.toNat_ofNat]
  omega

/-! The bits stand where R24 places them: E at 0, G at 1, L at 2. -/

@[simp] theorem flagE_packFlags (e g l : Bool) : flagE (packFlags e g l) = e := by
  revert e g l; decide

@[simp] theorem flagG_packFlags (e g l : Bool) : flagG (packFlags e g l) = g := by
  revert e g l; decide

@[simp] theorem flagL_packFlags (e g l : Bool) : flagL (packFlags e g l) = l := by
  revert e g l; decide

/-- Settles O10: the equation of each operation; CMP's flags are the byte `compareFlags` packs. -/
theorem aluComputesItsTable : Obligations.AluComputesItsTable := by
  intro a b
  refine ⟨aluCompute_add a b, aluCompute_sub a b, aluCompute_mul a b, aluCompute_div a, aluCompute_mod a, ?zero,
    rfl, rfl, rfl, aluCompute_inc a b, aluCompute_dec a b, aluCompute_not a b, compareFlags a b, rfl, ?cmp⟩
  case zero =>
    rintro rfl
    exact ⟨aluCompute_div_zero a, aluCompute_mod_zero a⟩
  case cmp => exact ⟨flagE_packFlags .., flagG_packFlags .., flagL_packFlags ..⟩

end Sys2Proof.Machine
end

section
/-! SUPPORT. When the ALU, the stack's guards and the interrupt entry raise a fault; then the statements of
R162 and R164. -/

namespace Sys2Proof.Machine

/-- A fault the ALU answers on the operands' values is raised, whatever the operands (R110). -/
theorem aluTwo_of_error {op : AluOp} {ra rb : Reg} {s : State} {f : Fault}
    (h : aluCompute op (s.reg ra) (s.reg rb) = .error f) : aluTwo op ra.toByte rb.toByte s = raise f s := by
  rw [aluTwo, withRegs_toByte, h]
  rfl

/-- Settles O13: the ALU looks at the divisor before the operation, so no dividend matters. -/
theorem zeroDivisorFaults : Obligations.ZeroDivisorFaults := by
  intro ra rb s hzero
  constructor
  · exact aluTwo_of_error (by rw [hzero, aluCompute_div_zero])
  · exact aluTwo_of_error (by rw [hzero, aluCompute_mod_zero])

/-- PUSH without room for a byte overflows (R132). -/
theorem execPush_overflow {s : State} (ra : Reg) (hp : s.canPush 1 = false) :
    execPush ra.toByte s = raise (.stackOverflow s.sp) s := by
  rw [execPush, withReg_toByte, if_pos hp]

/-- CALL with a return address that fits and no room for a byte overflows (R134). -/
theorem execCall_overflow {s : State} (ra : Reg) (ha : addressInRange (s.pc + 2) = true)
    (hp : s.canPush 1 = false) : execCall ra.toByte s = raise (.stackOverflow s.sp) s := by
  rw [execCall, withReg_toByte]
  exact (if_neg (by rw [ha]; decide)).trans (if_pos hp)

/-- The interrupt entry with a `pc` that fits and no room for nine bytes overflows (R175). -/
theorem takeInterrupt_overflow {s : State} (n : Line) (ha : addressInRange s.pc = true)
    (hp : s.canPush 9 = false) : takeInterrupt n s = raiseInEntry (.stackOverflow s.sp) s := by
  rw [takeInterrupt, if_neg (by rw [ha]; decide), if_pos hp]

/-- Settles O22: the room for one byte fails PUSH and CALL, the room for nine fails the entry, each once its
own guard on `pc` has passed. -/
theorem stackOverflowBelowTheFloor : Obligations.StackOverflowBelowTheFloor := by
  intro ra n s
  refine ⟨fun hroom => ?instructions, fun hroom hpc => ?entry⟩
  case instructions =>
    have hp := State.canPush_false hroom
    exact ⟨execPush_overflow ra hp, fun hpc => execCall_overflow ra (decide_eq_true hpc) hp⟩
  case entry => exact takeInterrupt_overflow n (decide_eq_true hpc) (State.canPush_false hroom)

end Sys2Proof.Machine
end

section
/-! SUPPORT. The frame an interrupt entry leaves, byte by byte, and the state IRET makes of it; then the
statement of R176. -/

namespace Sys2Proof.Machine

@[simp] theorem State.entered_sp (n : Line) (s : State) : (s.entered n).sp = s.sp - 9 := by
  rw [State.entered_eq, State.sp_eq, RegFile.get_set, if_pos rfl]

@[simp] theorem State.entered_imSaved (n : Line) (s : State) : (s.entered n).imSaved = s.im := by
  rw [State.entered_eq]

/-- The entry clears the pending bit of the line taken (R174). -/
theorem State.entered_is_getLsbD_self (n : Line) (s : State) : (s.entered n).is.getLsbD n.val = false := by
  rw [State.entered_eq]
  have := lineBit_getLsbD (Nat.le_of_lt_succ n.isLt) n.isLt
  simp [this]

/-- Inside memory `pc` is what its low byte extends to. -/
theorem zext9_lowByte {p : PcWord} (h : p.toNat ≤ 0xFF) : zext9 (lowByte p) = p := by
  apply BitVec.eq_of_toNat_eq
  simp only [zext9, lowByte, BitVec.toNat_setWidth]
  omega

/-- Nine bytes below `p` that do not wrap. -/
theorem sub_nine_toNat {p : Byte} (hp : 9 ≤ p.toNat) : (p - 9).toNat = p.toNat - 9 :=
  BitVec.toNat_sub_of_le hp

/-- Address of byte `k` of a frame of nine bytes below `p` that does not wrap. -/
theorem frameAddress_toNat {p : Byte} {k : Nat} (hp : 9 ≤ p.toNat) (hk : k < 9) :
    (p - 9 + BitVec.ofNat 8 k).toNat = p.toNat - 9 + k := by
  have := p.isLt
  rw [BitVec.toNat_add, sub_nine_toNat hp, BitVec.toNat_ofNat]
  omega

/-- Memory after an entry: the frame below the old `SP`, its first byte on top, and every other byte as before
(R174). -/
theorem State.load_entered {s : State} (n : Line) (hsp : 9 ≤ s.sp.toNat) (a : Byte) :
    (s.entered n).load a =
      if a.toNat < s.sp.toNat ∧ s.sp.toNat ≤ a.toNat + s.entryFrame.length then
        s.entryFrame.getD (s.sp.toNat - 1 - a.toNat) 0
      else s.load a :=
  State.load_pushAll s.entryFrame
    { s with imSaved := s.im, im := 0x00, is := s.is &&& ~~~(lineBit n.val) } hsp a

/-- Upwards from the new `SP` stands the frame, its last byte first (R178). -/
theorem State.load_entered_frame {s : State} (n : Line) {k : Nat} (hsp : 9 ≤ s.sp.toNat) (hk : k < 9) :
    (s.entered n).load (s.sp - 9 + BitVec.ofNat 8 k) = s.entryFrame.getD (8 - k) 0 := by
  have hlen : s.entryFrame.length = 9 := rfl
  rw [State.load_entered n hsp, frameAddress_toNat hsp hk, hlen, if_pos (by omega)]
  congr 1
  omega

/-- IRET on a frame another state pushed: that state's registers, `FL` and the low byte of its `pc` (R151). -/
theorem State.returned_of_frame {s u : State} (hsp : u.sp = s.sp - 9)
    (hframe : ∀ k < 9, u.load (u.sp + BitVec.ofNat 8 k) = s.entryFrame.getD (8 - k) 0) :
    u.returned = { u with regs := s.regs, fl := s.fl, pc := zext9 (lowByte s.pc), im := u.imSaved } := by
  have hregs : u.returned.regs = s.regs := by
    apply RegFile.ext_get
    intro r
    cases r with
    | r0 => exact hframe 6 (by decide)
    | r1 => exact hframe 5 (by decide)
    | r2 => exact hframe 4 (by decide)
    | r3 => exact hframe 3 (by decide)
    | r4 => exact hframe 2 (by decide)
    | r5 => exact hframe 1 (by decide)
    | r6 => exact (congrArg u.load (BitVec.add_zero u.sp).symm).trans (hframe 0 (by decide))
    | r7 =>
      change u.sp + 9 = s.sp
      rw [hsp, BitVec.sub_add_cancel]
  have hfl : u.returned.fl = s.fl := hframe 7 (by decide)
  have hpc : u.returned.pc = zext9 (lowByte s.pc) := congrArg zext9 (hframe 8 (by decide))
  rw [← hregs, ← hfl, ← hpc]
  rfl

/-- Settles O47: the handler leaves the frame of `State.load_entered_frame`, and `State.returned_of_frame`
says what IRET makes of it. -/
theorem entryThenIretRestores : Obligations.EntryThenIretRestores := by
  intro n s t u hpc hroom hbase htake husp husaved hkept
  have hsp : 9 ≤ s.sp.toNat := by omega
  obtain rfl : s.entered n = t :=
    Host.Outcome.next.inj ((takeInterrupt_entered (decide_eq_true hpc) (decide_eq_true hroom)).symm.trans htake)
  rw [State.entered_sp] at husp hkept
  have hbottom := sub_nine_toNat hsp
  have hframe : ∀ k < 9, u.load (u.sp + BitVec.ofNat 8 k) = s.entryFrame.getD (8 - k) 0 := by
    intro k hk
    have haddr := frameAddress_toNat hsp hk
    rw [husp, hkept _ (by omega) (by omega), State.load_entered_frame n hsp hk]
  have hpop : u.canPop 9 = true := by
    rw [State.canPop, husp, hbottom, Nat.sub_add_cancel hsp]
    exact decide_eq_true hbase
  have hiret : exec .iret u = .next u.returned := returnFromInterrupt_returned hpop
  rw [State.returned_of_frame husp hframe, zext9_lowByte hpc] at hiret
  exact ⟨State.entered_is_getLsbD_self n s, _, hiret, rfl, rfl, rfl, husaved.trans (State.entered_imSaved n s), rfl,
    fun _ => rfl⟩

end Sys2Proof.Machine
end

section
/-! SUPPORT. Encoding and decoding are inverse to each other under a legal map, and the unknown bytes are the
bytes of no mnemonic; then the statements of R61, R62, R65 to R67 and R71. -/

namespace Sys2Proof

/-- Settles O1: the words start with the mnemonic's byte, and exactly its `count` operand bytes are taken, the
instruction's own. -/
theorem decodeOfEncodeIsIdentity : Obligations.DecodeOfEncodeIsIdentity := by
  intro m i rest hm
  have hlen : i.mnemonic.count ≤ (i.operands ++ rest).length := by
    rw [List.length_append, i.operands_length]
    exact Nat.le_add_right _ _
  have hrest : (i.operands ++ rest).drop i.mnemonic.count = rest := List.drop_left' i.operands_length
  rw [encode, List.cons_append, hm.decode_byteOf_complete hlen, assemble_operands, hrest]

/-- The first bytes of a list, two at most, are the bytes read one by one with a filler. -/
theorem take_getD_pair {bs : List Byte} {k : Nat} (hk : k ≤ 2) (hlen : k ≤ bs.length) :
    [bs.getD 0 0, bs.getD 1 0].take k = bs.take k := by
  interval_cases k
  · rfl
  · obtain ⟨a, rest, rfl⟩ := List.exists_cons_of_length_pos hlen
    rfl
  · match bs, hlen with
    | a :: b :: rest, _ => rfl

/-- Settles O2: an accepted sequence is a mnemonic's byte and at least its `count` bytes; the operands are the
first of these and the rest the others. -/
theorem encodeOfDecodeIsIdentity : Obligations.EncodeOfDecodeIsIdentity := by
  intro m bs i rest hm hdecode
  rcases Machine.decode_cases m bs with ⟨-, e⟩ | ⟨op, tail, rfl, ⟨e, -⟩ | ⟨n, hn, ⟨-, e⟩ | ⟨hlen, e⟩⟩⟩
  · cases e.symm.trans hdecode
  · cases e.symm.trans hdecode
  · cases e.symm.trans hdecode
  · cases e.symm.trans hdecode
    have hcount : operandCount op = n.count := by rw [← hn, hm.count n]
    rw [hcount] at hlen ⊢
    rw [encode, assemble_mnemonic, assemble_operands_eq, take_getD_pair n.count_le_two hlen, hn, List.cons_append,
      List.take_append_drop]

/-- Settles O3: the byte of a mnemonic is never answered as unknown, and any other byte always is. -/
theorem unknownOpcodesAreExactlyTheOthers : Obligations.UnknownOpcodesAreExactlyTheOthers := by
  intro m op rest
  refine ⟨fun hdecode => ?_, decode_cons_of_unmapped rest⟩
  rcases Machine.decode_cases m (op :: rest) with ⟨h, -⟩ | ⟨op', tail, hbytes, ⟨-, h⟩ | ⟨n, -, ⟨-, e⟩ | ⟨-, e⟩⟩⟩
  · cases h
  · cases hbytes
    exact h
  · cases e.symm.trans hdecode
  · cases e.symm.trans hdecode

/-- The map has a mnemonic for a byte. -/
def OpcodeMap.defines (m : OpcodeMap) (op : Byte) : Bool := Mnemonic.all.any fun n => m.byteOf n == op

theorem OpcodeMap.defines_iff {m : OpcodeMap} {op : Byte} : m.defines op = true ↔ ∃ n, m.byteOf n = op := by
  simp [OpcodeMap.defines, Mnemonic.mem_all]

/-- The defined bytes, counted upwards, are the thirty bytes of the table in another order. -/
theorem OpcodeMap.Legal.perm_defined {m : OpcodeMap} (h : m.Legal) :
    ((List.range 256).filter fun v => m.defines (BitVec.ofNat 8 v)).Perm
      (Mnemonic.all.map fun n => (m.byteOf n).toNat) := by
  have hnodup : (Mnemonic.all.map fun n => (m.byteOf n).toNat).Nodup := by
    have hmap := h.1.map (f := BitVec.toNat) fun _ _ => BitVec.eq_of_toNat_eq
    rwa [List.map_map] at hmap
  refine (List.perm_ext_iff_of_nodup (List.nodup_range.filter _) hnodup).mpr fun v => ?_
  simp only [List.mem_filter, List.mem_range, List.mem_map, OpcodeMap.defines_iff]
  constructor
  · rintro ⟨hv, n, hn⟩
    exact ⟨n, n.mem_all, by rw [hn, BitVec.toNat_ofNat, Nat.mod_eq_of_lt hv]⟩
  · rintro ⟨n, -, rfl⟩
    exact ⟨(m.byteOf n).isLt, n, by rw [BitVec.ofNat_toNat, BitVec.setWidth_eq]⟩

/-- Every legal map leaves 226 of the 256 bytes undefined (R67). -/
theorem OpcodeMap.Legal.undefined_length {m : OpcodeMap} (h : m.Legal) :
    ((List.range 256).filter fun v => !m.defines (BitVec.ofNat 8 v)).length = 226 := by
  have hsum := List.length_eq_length_filter_add (l := List.range 256) fun v => m.defines (BitVec.ofNat 8 v)
  have hdefined := h.perm_defined.length_eq
  rw [List.length_map] at hdefined
  have hall : Mnemonic.all.length = 30 := rfl
  rw [List.length_range] at hsum
  omega

/-- Settles O5: the three invariants are closed facts about the one table; the count then holds as for every
legal map. -/
theorem defaultMapIsLegal : Obligations.DefaultMapIsLegal := by
  have h : OpcodeMap.standard.Legal := by decide
  exact ⟨h, h.undefined_length⟩

/-- Settles O6: each word is decoded by running the decoder. -/
theorem sampleWordsDecode : Obligations.SampleWordsDecode := ⟨rfl, rfl, rfl, rfl, rfl, rfl⟩

end Sys2Proof
end

section
/-! SUPPORT. A canonical memory is determined by its reads; then the statements of R40, R41, R63 and R20. -/

namespace Sys2Proof.Machine

/-- An address without an entry reads as the unlisted byte. -/
theorem Memory.lookup_of_unlisted {m : Memory} {a : Nat} (h : ∀ c ∈ m, c.1 ≠ a) : m.lookup a = unwrittenByte := by
  induction m with
  | nil => rfl
  | cons c rest ih =>
    rw [Memory.lookup, if_neg (h c List.mem_cons_self)]
    exact ih fun d hd => h d (List.mem_cons_of_mem _ hd)

/-- The first entry of a canonical memory stands below all others, reads as its byte, and the rest is canonical
and knows nothing of it. -/
theorem Memory.wf_cons {k : Nat} {v : Byte} {rest : Memory} (h : Memory.wf ((k, v) :: rest)) :
    (∀ a < k, Memory.lookup ((k, v) :: rest) a = unwrittenByte) ∧ v ≠ unwrittenByte
      ∧ Memory.lookup rest k = unwrittenByte ∧ Memory.wf rest := by
  obtain ⟨hsorted, hcells⟩ := h
  obtain ⟨hfirst, hrest⟩ := List.pairwise_cons.mp hsorted
  refine ⟨fun a ha => Memory.lookup_of_unlisted fun c hc => ?_, (hcells _ List.mem_cons_self).2,
    Memory.lookup_of_unlisted fun c hc => (hfirst c hc).ne',
    hrest, fun c hc => hcells c (List.mem_cons_of_mem _ hc)⟩
  rcases List.mem_cons.mp hc with rfl | hc
  · exact ha.ne'
  · exact (ha.trans (hfirst c hc)).ne'

/-- A canonical memory that reads as unlisted everywhere has no entry. -/
theorem Memory.eq_nil_of_lookup {m : Memory} (h : m.wf) (heq : ∀ a, m.lookup a = unwrittenByte) : m = [] := by
  cases m with
  | nil => rfl
  | cons c rest =>
    obtain ⟨-, hv, -⟩ := Memory.wf_cons h
    exact absurd ((if_pos rfl).symm.trans (heq c.1)) hv

/-- Canonical memories that answer alike for every key are equal: their first entries have the same key, since
the lower of the two would be unlisted in the other. -/
theorem Memory.eq_of_lookup_eq {m m' : Memory} (h : m.wf) (h' : m'.wf) (heq : ∀ a, m.lookup a = m'.lookup a) :
    m = m' := by
  induction m generalizing m' with
  | nil => exact (Memory.eq_nil_of_lookup h' fun a => (heq a).symm).symm
  | cons c rest ih =>
    cases m' with
    | nil => exact Memory.eq_nil_of_lookup h heq
    | cons c' rest' =>
      obtain ⟨k, v⟩ := c
      obtain ⟨k', v'⟩ := c'
      obtain ⟨hbelow, hv, hself, hrest⟩ := Memory.wf_cons h
      obtain ⟨hbelow', hv', hself', hrest'⟩ := Memory.wf_cons h'
      have hk : k = k' := by
        rcases Nat.lt_trichotomy k k' with hlt | hk | hlt
        · exact absurd (((if_pos rfl).symm.trans (heq k)).trans (hbelow' k hlt)) hv
        · exact hk
        · exact absurd (((if_pos rfl).symm.trans (heq k').symm).trans (hbelow k' hlt)) hv'
      subst hk
      obtain rfl : v = v' := by simpa [Memory.lookup] using heq k
      congr 1
      refine ih hrest hrest' fun a => ?_
      by_cases ha : k = a
      · rw [← ha, hself, hself']
      · simpa [Memory.lookup, ha] using heq a

/-- The keys past 0xFF are unlisted in a canonical memory, so its reads tell every lookup. -/
theorem Memory.eq_of_read_eq {m m' : Memory} (h : m.wf) (h' : m'.wf) (heq : ∀ a, m.read a = m'.read a) : m = m' := by
  refine Memory.eq_of_lookup_eq h h' fun a => ?_
  by_cases ha : a < 256
  · have := heq (BitVec.ofNat 8 a)
    rwa [Memory.read, Memory.read, BitVec.toNat_ofNat, Nat.mod_eq_of_lt ha] at this
  · have out : ∀ {n : Memory}, n.wf → ∀ c ∈ n, c.1 ≠ a := fun hn c hc => by
      have := (hn.2 c hc).1
      omega
    rw [Memory.lookup_of_unlisted (out h), Memory.lookup_of_unlisted (out h')]

/-- Settles O9: `Memory.eq_of_read_eq`, and `Memory.write_wf` for the writes. -/
theorem equalMemoriesAreEqualData : Obligations.EqualMemoriesAreEqualData :=
  ⟨fun _ _ h h' heq => Memory.eq_of_read_eq h h' heq, fun _ a v h => Memory.write_wf h a v⟩

/-- Settles O7: a register byte is its register's number, and a register file is read after a write by
`RegFile.get_set`. -/
theorem registerBytesSelectRegistersThatHold : Obligations.RegisterBytesSelectRegistersThatHold :=
  ⟨Reg.ofByte_toByte, fun _ _ h => Reg.eq_toByte h, fun _ => Reg.ofByte_eq_none,
    fun s r q v => RegFile.get_set s.regs r q v⟩

end Sys2Proof.Machine
end

section
/-! SUPPORT. An ALU instruction whose operation answers a byte, and the flags CMP computes; then the statements
of R111 to R122. -/

namespace Sys2Proof.Machine

/-- A two-operand operation that answers a byte writes it to regA and moves past three bytes (R110). -/
theorem aluTwo_of_result {op : AluOp} {ra rb : Reg} {s : State} {v : Byte}
    (h : aluCompute op (s.reg ra) (s.reg rb) = aluResult v) :
    aluTwo op ra.toByte rb.toByte s = .next { s with regs := s.regs.set ra v, pc := s.pc + 3 } := by
  rw [aluTwo, withRegs_toByte, h]
  rfl

/-- A one-operand operation that answers a byte writes it to regA and moves past two bytes (R110). -/
theorem aluOne_of_result {op : AluOp} {ra : Reg} {s : State} {v : Byte}
    (h : aluCompute op (s.reg ra) 0 = aluResult v) :
    aluOne op ra.toByte s = .next { s with regs := s.regs.set ra v, pc := s.pc + 2 } := by
  rw [aluOne, withReg_toByte, h]
  rfl

/-- Settles O11: the equation of each operation, written back. -/
theorem arithmeticWrapsModulo256 : Obligations.ArithmeticWrapsModulo256 := fun _ _ _ =>
  ⟨aluTwo_of_result (aluCompute_add ..), aluTwo_of_result (aluCompute_sub ..), aluTwo_of_result (aluCompute_mul ..),
    aluOne_of_result (aluCompute_inc ..), aluOne_of_result (aluCompute_dec ..), aluOne_of_result (aluCompute_not ..)⟩

/-- Settles O12: quotient and remainder of natural numbers below 256 fit a byte, so narrowing keeps them. -/
theorem divModGiveQuotientAndRemainder : Obligations.DivModGiveQuotientAndRemainder := by
  intro ra rb s hdivisor
  have hpos : 0 < (s.reg rb).toNat := Nat.pos_of_ne_zero (BitVec.toNat_ne_iff_ne.mpr hdivisor)
  have fits : ∀ n ≤ (s.reg ra).toNat, (BitVec.ofNat 8 n).toNat = n := fun n hn =>
    Nat.mod_eq_of_lt (hn.trans_lt (s.reg ra).isLt)
  refine ⟨_, _, ?_, ?_, aluTwo_of_result (aluCompute_div _ hdivisor), aluTwo_of_result (aluCompute_mod _ hdivisor)⟩
  · rw [fits _ (Nat.div_le_self ..), fits _ (Nat.mod_le ..), Nat.div_add_mod]
  · rw [fits _ (Nat.mod_le ..)]
    exact Nat.mod_lt _ hpos

/-- Settles O14: the results are the bit vectors' own operations, bit by bit. -/
theorem logicWorksBitByBit : Obligations.LogicWorksBitByBit := by
  intro ra rb s
  refine ⟨s.reg ra &&& s.reg rb, s.reg ra ||| s.reg rb, s.reg ra ^^^ s.reg rb, fun k _ => ?_,
    aluTwo_of_result rfl, aluTwo_of_result rfl, aluTwo_of_result rfl⟩
  exact ⟨BitVec.getLsbD_and .., BitVec.getLsbD_or .., BitVec.getLsbD_xor ..⟩

/-- CMP of equal operands sets E alone (R122). -/
theorem compareFlags_self (a : Byte) : compareFlags a a = 0b00000001 := by
  rw [compareFlags, decide_eq_true rfl, decide_eq_false (lt_irrefl a.toNat)]
  rfl

/-- CMP of a greater operand with a less one sets G alone (R122). -/
theorem compareFlags_of_gt {a b : Byte} (h : b.toNat < a.toNat) : compareFlags a b = 0b00000010 := by
  rw [compareFlags, decide_eq_false h.ne', decide_eq_true h, decide_eq_false h.not_gt]
  rfl

/-- CMP of a less operand with a greater one sets L alone (R122). -/
theorem compareFlags_of_lt {a b : Byte} (h : a.toNat < b.toNat) : compareFlags a b = 0b00000100 := by
  rw [compareFlags, decide_eq_false h.ne, decide_eq_false h.not_gt, decide_eq_true h]
  rfl

/-- Settles O15: the three orders of the operands, and the three bits of the packed byte. -/
theorem cmpWritesOneFlag : Obligations.CmpWritesOneFlag := by
  intro ra rb s
  refine ⟨compareFlags (s.reg ra) (s.reg rb), ?exec, fun heq => ?equal, compareFlags_of_gt, compareFlags_of_lt,
    ?flagE, flagG_packFlags .., flagL_packFlags ..⟩
  case exec => exact withRegs_toByte ra rb s _
  case equal => rw [heq, compareFlags_self]
  case flagE =>
    rw [compareFlags, flagE_packFlags]
    exact decide_eq_decide.mpr BitVec.toNat_inj

end Sys2Proof.Machine
end

section
/-! SUPPORT. Data movement, output and jumps on legal operand bytes; the statements of R101 to R105, R140 to
R144, R152 and R153. -/

namespace Sys2Proof.Machine

/-- Settles O16: each instruction on legal operand bytes is its body; ST's byte by read after write. -/
theorem dataMovementResults : Obligations.DataMovementResults := by
  intro ra rb imm s
  refine ⟨withReg_toByte ra s _, withRegs_toByte ra rb s _, _, withRegs_toByte ra rb s _, ?_, fun a ha => ?_, rfl⟩
  · exact (State.load_store ..).trans (if_pos rfl)
  · exact (State.load_store ..).trans (if_neg ha)

/-- Settles O17: the record is appended behind the earlier ones. -/
theorem printAppendsOneRecord : Obligations.PrintAppendsOneRecord := fun ra s =>
  ⟨withReg_toByte ra s _, withReg_toByte ra s _⟩

/-- A jump on a legal operand byte, its condition put as a proposition (R145). -/
theorem jumpWhen_toByte {c : Bool} {p : Prop} [Decidable p] (ra : Reg) (s : State) (h : c = true ↔ p) :
    jumpWhen c ra.toByte s
      = .next { s with pc := if p then BitVec.ofNat 9 (s.reg ra).toNat else s.pc + 2 } := by
  rw [jumpWhen, withReg_toByte, BitVec.ofNat_toNat]
  simp only [h]
  split
  · rfl
  · rfl

/-- A flag is a digit of `FL` in base two (R24). -/
theorem getLsbD_iff_digit (fl : Byte) (k : Nat) : fl.getLsbD k = true ↔ fl.toNat / 2 ^ k % 2 = 1 := by
  rw [BitVec.getLsbD, Nat.testBit_eq_decide_div_mod_eq, decide_eq_true_iff]

/-- Settles O25: each jump tests the digit of `FL` at its own place. -/
theorem jumpsTestOneFlagOrNone : Obligations.JumpsTestOneFlagOrNone := by
  intro ra s
  have hE : flagE s.fl = true ↔ s.fl.toNat % 2 = 1 := (getLsbD_iff_digit s.fl 0).trans (by rw [pow_zero, Nat.div_one])
  refine ⟨jumpWhen_toByte (p := True) ra s (iff_of_true rfl trivial), jumpWhen_toByte ra s hE,
    jumpWhen_toByte ra s ?_, jumpWhen_toByte ra s (getLsbD_iff_digit s.fl 1),
    jumpWhen_toByte ra s (getLsbD_iff_digit s.fl 2)⟩
  rw [Bool.not_eq_true', ← Bool.not_eq_true, hE]
  omega

/-- Settles O28: both instructions are their bodies. -/
theorem nopAdvancesAndHltStops : Obligations.NopAdvancesAndHltStops := fun _ => ⟨rfl, rfl⟩

end Sys2Proof.Machine
end

section
/-! SUPPORT. The stack instructions once their guards have passed, one equation each, and once they fail; then
the statements of R132 to R135 and R165, and the round trips T-L4 and T-L5. -/

namespace Sys2Proof.Machine

/-- There is room for `k` bytes (R130). -/
theorem State.canPush_true {s : State} {k : Nat} (h : s.cfg.stackFloor.toNat + k ≤ s.sp.toNat) :
    s.canPush k = true := decide_eq_true h

/-- The stack holds `k` bytes (R131). -/
theorem State.canPop_true {s : State} {k : Nat} (h : s.sp.toNat + k ≤ 0xF4) : s.canPop k = true := decide_eq_true h

/-- PUSH with room for its byte (R132). -/
theorem execPush_completes {s : State} (ra : Reg) (hp : s.canPush 1 = true) :
    execPush ra.toByte s = .next ((s.push (s.decSp.reg ra)).advance 1) := by
  rw [execPush, withReg_toByte, if_neg (by rw [hp]; decide)]

/-- POP with a byte to pop (R133). -/
theorem execPop_completes {s : State} (ra : Reg) (hp : s.canPop 1 = true) :
    execPop ra.toByte s = .next ((s.popReg ra).advance 1) := by
  rw [execPop, withReg_toByte, if_neg (by rw [hp]; decide)]

/-- CALL with a return address that fits and room for it (R134). -/
theorem execCall_completes {s : State} (ra : Reg) (ha : addressInRange (s.pc + 2) = true)
    (hp : s.canPush 1 = true) : execCall ra.toByte s
      = .next ((s.push (lowByte (s.pc + 2))).jump ((s.push (lowByte (s.pc + 2))).reg ra)) := by
  rw [execCall, withReg_toByte]
  exact (if_neg (by rw [ha]; decide)).trans (if_neg (by rw [hp]; decide))

/-- RET with a byte to pop (R135). -/
theorem execRet_completes {s : State} (hp : s.canPop 1 = true) : execRet s = .next s.popPc := by
  rw [execRet, if_neg (by rw [hp]; decide)]

/-- CALL checks its return address before the stack (R134, R163). -/
theorem execCall_out_of_bounds {s : State} (ra : Reg) (ha : addressInRange (s.pc + 2) = false) :
    execCall ra.toByte s = raise (.memoryOutOfBounds (s.pc + 2)) s := by
  rw [execCall, withReg_toByte]
  exact if_pos ha

/-- POP with too little on the stack underflows (R133). -/
theorem execPop_underflow {s : State} (ra : Reg) (hp : s.canPop 1 = false) :
    execPop ra.toByte s = raise (.stackUnderflow s.sp) s := by
  rw [execPop, withReg_toByte, if_pos hp]

/-- RET with too little on the stack underflows (R135). -/
theorem execRet_underflow {s : State} (hp : s.canPop 1 = false) : execRet s = raise (.stackUnderflow s.sp) s := by
  rw [execRet, if_pos hp]

/-- IRET with too little on the stack underflows (R151). -/
theorem returnFromInterrupt_underflow {s : State} (hp : s.canPop 9 = false) :
    returnFromInterrupt s = raise (.stackUnderflow s.sp) s := by
  rw [returnFromInterrupt, if_pos hp]

/-- After the first half of a push R7 reads as the new `SP` and every other register as before (R130). -/
theorem State.reg_decSp (s : State) (r : Reg) : s.decSp.reg r = if r = .r7 then s.sp - 1 else s.reg r :=
  RegFile.get_set ..

/-- Popping into a register other than R7 leaves `SP` one more (R131). -/
theorem State.popReg_of_ne {s : State} {ra : Reg} (h : ra ≠ .r7) :
    s.popReg ra = { s with regs := (s.regs.set ra (s.load s.sp)).set .r7 (s.sp + 1) } := by
  have hsp : (s.setReg ra s.top).sp = s.sp := (RegFile.get_set ..).trans (if_neg h.symm)
  rw [State.popReg, State.incSp, hsp]
  rfl

/-- Popping into R7 leaves the byte popped plus one (R133; D20). -/
theorem State.popReg_r7 (s : State) : s.popReg .r7 = { s with regs := s.regs.set .r7 (s.load s.sp + 1) } := by
  have hsp : (s.setReg .r7 s.top).sp = s.top := rfl
  rw [State.popReg, State.incSp, hsp, State.setReg, State.setReg, RegFile.set_set]
  rfl

/-- Settles O18: the byte pushed is R7's new value or the register's old one. -/
theorem pushStoresBelowTheStackPointer : Obligations.PushStoresBelowTheStackPointer := by
  intro ra s hroom
  refine ⟨_, execPush_completes ra (State.canPush_true hroom), rfl, ?_, fun a ha => ?_⟩
  · exact (State.load_push ..).trans ((if_pos rfl).trans (State.reg_decSp s ra))
  · exact (State.load_push ..).trans (if_neg ha)

/-- Settles O19: the two forms of a pop, into R7 and into another register. -/
theorem popLoadsFromTheStackPointer : Obligations.PopLoadsFromTheStackPointer := by
  intro ra s hbase
  have hp := State.canPop_true hbase
  constructor
  · intro hra
    exact (execPop_completes ra hp).trans (by rw [State.popReg_of_ne hra]; rfl)
  · exact (execPop_completes .r7 hp).trans (by rw [State.popReg_r7]; rfl)

/-- The address behind a two-byte instruction, when it fits a byte. -/
theorem pc_add_two_toNat {p : PcWord} (h : p.toNat + 2 ≤ 0xFF) : (p + 2).toNat = p.toNat + 2 :=
  BitVec.toNat_add_of_lt (by change p.toNat + 2 < 512; omega)

/-- The low byte of a `pc` inside memory is that `pc`. -/
theorem lowByte_toNat {p : PcWord} (h : p.toNat ≤ 0xFF) : (lowByte p).toNat = p.toNat := by
  rw [lowByte, BitVec.toNat_setWidth, Nat.mod_eq_of_lt (by omega)]

/-- A byte keeps its value as a `pc`. -/
theorem zext9_toNat (v : Byte) : (zext9 v).toNat = v.toNat := by
  rw [zext9, BitVec.toNat_setWidth, Nat.mod_eq_of_lt (by have := v.isLt; omega)]

/-- Settles O20: the return address fits the byte pushed, and the target is read after the push. -/
theorem callPushesTheReturnAddress : Obligations.CallPushesTheReturnAddress := by
  intro ra s
  constructor
  · intro hpc hroom
    have hret := pc_add_two_toNat hpc
    have ha : addressInRange (s.pc + 2) = true := decide_eq_true (hret.trans_le hpc)
    refine ⟨_, execCall_completes ra ha (State.canPush_true hroom), rfl, ?_, ?_, fun a hne => ?_⟩
    · exact (zext9_toNat _).trans (congrArg BitVec.toNat (State.reg_decSp s ra))
    · refine (congrArg BitVec.toNat ((State.load_push ..).trans (if_pos rfl))).trans ?_
      rw [lowByte_toNat (hret.trans_le hpc), hret]
    · exact (State.load_push ..).trans (if_neg hne)
  · intro hout
    exact execCall_out_of_bounds ra (decide_eq_false (Nat.not_le.mpr hout))

/-- Settles O21: RET's one guard decides between its two equations. -/
theorem retPopsThePc : Obligations.RetPopsThePc :=
  ⟨rfl, fun _ => ⟨fun h => execRet_completes (State.canPop_true h),
    fun h => execRet_underflow (State.canPop_false (Nat.lt_succ_of_le h))⟩⟩

/-- Settles O23: the guard of one byte fails POP and RET, the guard of nine fails IRET. -/
theorem stackUnderflowAtTheBase : Obligations.StackUnderflowAtTheBase := by
  refine fun ra s => ⟨fun h => ?_, fun h => returnFromInterrupt_underflow (State.canPop_false h)⟩
  have hp := State.canPop_false h
  exact ⟨execPop_underflow ra hp, execRet_underflow hp⟩

/-- A byte pushed below an `SP` of at most 0xF4 can be popped. -/
theorem canPop_below {s t : State} (hsp : t.sp = s.sp - 1) (hpos : 1 ≤ s.sp.toNat) (hbase : s.sp.toNat ≤ 0xF4) :
    t.canPop 1 = true := by
  refine State.canPop_true ?_
  rw [hsp, BitVec.toNat_sub_of_le hpos]
  exact (Nat.sub_add_cancel hpos).trans_le hbase

/-- Writing a register's own value changes nothing. -/
theorem RegFile.set_get (f : RegFile) (r : Reg) : f.set r (f.get r) = f := by
  cases r <;> rfl

/-- A push of the register PUSH reads, popped again, leaves every register as it was. -/
theorem State.popReg_push_regs (s : State) (ra : Reg) :
    ((s.push (s.decSp.reg ra)).popReg ra).regs = s.regs := by
  have htop : (s.push (s.decSp.reg ra)).load (s.sp - 1) = s.decSp.reg ra := (State.load_push ..).trans (if_pos rfl)
  have hsp : s.sp - 1 + 1 = s.sp := BitVec.sub_add_cancel ..
  by_cases hra : ra = .r7
  · subst hra
    rw [State.popReg_r7, State.sp_push, htop, State.reg_decSp, if_pos rfl, hsp, State.push_regs, RegFile.set_set]
    exact RegFile.set_get s.regs .r7
  · rw [State.popReg_of_ne hra, State.sp_push, htop, State.reg_decSp, if_neg hra, hsp, State.push_regs]
    apply RegFile.ext_get
    intro r
    rw [RegFile.get_set, RegFile.get_set, RegFile.get_set]
    split
    · next h => exact congrArg s.regs.get h.symm
    · split
      · next h => exact congrArg s.regs.get h.symm
      · rfl

/-- Settles O24: the state the first instruction leaves is the one its equation gives, and the byte it pushed
is what the second pops. -/
theorem stackRoundTrips : Obligations.StackRoundTrips := by
  constructor
  · intro ra s t hroom hbase hpush
    obtain rfl := Host.Outcome.next.inj ((execPush_completes ra (State.canPush_true hroom)).symm.trans hpush)
    refine ⟨_, execPop_completes ra (canPop_below rfl (by omega) hbase), State.popReg_push_regs s ra, ?_, rfl⟩
    exact BitVec.add_assoc s.pc 2 2
  · intro ra s t u hpc hroom hbase hcall husp hload
    have hret := pc_add_two_toNat hpc
    have ha : addressInRange (s.pc + 2) = true := decide_eq_true (hret.trans_le hpc)
    obtain rfl := Host.Outcome.next.inj ((execCall_completes ra ha (State.canPush_true hroom)).symm.trans hcall)
    have hsp : u.sp = s.sp - 1 := husp
    have htop : u.top = lowByte (s.pc + 2) := by
      rw [State.top, husp, hload]
      exact (State.load_push ..).trans (if_pos rfl)
    refine ⟨_, execRet_completes (canPop_below hsp (by omega) hbase), ?_, ?_⟩
    · rw [State.popPc_pc, htop, zext9_lowByte (hret.trans_le hpc)]
    · change u.sp + 1 = s.sp
      rw [hsp, BitVec.sub_add_cancel]

end Sys2Proof.Machine
end

section
/-! SUPPORT. INT and IRET on legal operands, and register bytes above 7 for every instruction; then the statements
of R150, R151, R100 and R166. -/

namespace Sys2Proof.Machine

/-- INT's two outcomes, decided by the register's value (R150). -/
theorem execInt_toByte (ra : Reg) (s : State) : execInt ra.toByte s =
    if (s.reg ra).toNat > 7 then raise (.invalidOperand (s.reg ra)) s
    else .next ({ s with is := s.is ||| lineBit (s.reg ra).toNat }.advance 1) := withReg_toByte ra s _

/-- Settles O26: the bit raised is the register's value, and no other. -/
theorem intSetsOnePendingBit : Obligations.IntSetsOnePendingBit := by
  intro ra s
  refine ⟨fun hn => ⟨s.is ||| lineBit (s.reg ra).toNat, fun k hk => ?_, ?_⟩, fun hn => ?_⟩
  · rw [BitVec.getLsbD_or, lineBit_getLsbD hn hk]
  · exact (execInt_toByte ra s).trans (if_neg (Nat.not_lt.mpr hn))
  · exact (execInt_toByte ra s).trans (if_pos hn)

/-- Settles O27: the state IRET leaves when it does not underflow. -/
theorem iretPopsTheFrame : Obligations.IretPopsTheFrame := fun _ h =>
  returnFromInterrupt_returned (State.canPop_true h)

/-- A form with one register operand raises the fault of a bad byte (R100). -/
theorem withReg_of_find {a v : Byte} (h : [a].find? (fun b => decide (7 < b.toNat)) = some v) (s : State)
    (body : Reg → Result) : withReg a s body = raise (.invalidOperand v) s := by
  have hv : 7 < v.toNat := by simpa using List.find?_some h
  obtain rfl := List.mem_singleton.mp (List.mem_of_find?_eq_some h)
  exact withReg_bad hv s body

/-- A form with two register operands raises the fault of its first bad byte (R100). -/
theorem withRegs_of_find {a b v : Byte} (h : [a, b].find? (fun b => decide (7 < b.toNat)) = some v) (s : State)
    (body : Reg → Reg → Result) : withRegs a b s body = raise (.invalidOperand v) s := by
  rcases byte_cases a with ⟨r, rfl⟩ | ha
  · have hr : ¬7 < r.toByte.toNat := by cases r <;> decide
    rw [List.find?_cons_of_neg (by simpa using hr)] at h
    rw [withRegs, withReg_toByte, withReg_of_find h]
  · rw [List.find?_cons_of_pos (by simpa using ha)] at h
    obtain rfl := Option.some.inj h
    exact withReg_bad ha s _

/-- Settles O29: an instruction with register operands is one of the two forms, and those of no operand have no
bad byte. -/
theorem badRegisterOperandFaults : Obligations.BadRegisterOperandFaults := by
  intro i s v h
  cases i with
  | ret | iret | nop | hlt => cases h
  | ldi a _ | prn a | pra a | inc a | dec a | not a | push a | pop a | call a | jmp a | jeq a | jne a | jgt a | jlt a
  | int a => exact withReg_of_find h s _
  | ld a b | st a b | add a b | sub a b | mul a b | div a b | mod a b | and a b | or a b | xor a b | cmp a b =>
    exact withRegs_of_find h s _

end Sys2Proof.Machine
end

section
/-! SUPPORT. What a completed instruction of each kind does to the state, as one equation; then the frames of
spec/10_state.md section 9. A latched fault is in every frame. -/

namespace Sys2Proof.Machine

open Claims

/-- An instruction of the first kind writes the register its operand selects. -/
theorem Completed.of_registerOnly {i : Instr} {a : Byte} {s t : State} (hi : registerOnly i = some a)
    (h : Completed i s t) : ∃ r v n, Reg.ofByte a = some r ∧ t = (s.setReg r v).advance n := by
  cases i with
  | ldi =>
    cases hi
    obtain ⟨r, hr, rfl⟩ := h
    exact ⟨r, _, _, hr, rfl⟩
  | ld =>
    cases hi
    obtain ⟨r, q, hr, -, rfl⟩ := h
    exact ⟨r, _, _, hr, rfl⟩
  | add | sub | mul | div | mod | and | or | xor | inc | dec | not =>
    cases hi
    obtain ⟨r, v, hr, rfl⟩ := h
    exact ⟨r, v, _, hr, rfl⟩
  | _ => cases hi

/-- A jump writes `pc`. -/
theorem Completed.of_isJump {i : Instr} {s t : State} (hi : isJump i = true) (h : Completed i s t) :
    ∃ p, t = { s with pc := p } := by
  cases i with
  | jmp | jeq | jne | jgt | jlt =>
    rcases h with ⟨r, -, rfl⟩ | ⟨-, rfl⟩
    · exact ⟨_, rfl⟩
    · exact ⟨_, rfl⟩
  | _ => cases hi

/-- PUSH and CALL push one byte and write `pc`. -/
theorem push_or_call_cases {a : Byte} {s t : State}
    (h : exec (.push a) s = .next t ∨ exec (.call a) s = .next t) :
    (∃ v p, t = { s.push v with pc := p }) ∨ ∃ f, t = s.latch f false := by
  rcases h with h | h
  · refine (exec_cases h).imp_left ?_
    rintro ⟨r, -, -, rfl⟩
    exact ⟨_, _, rfl⟩
  · refine (exec_cases h).imp_left ?_
    rintro ⟨r, -, -, -, rfl⟩
    exact ⟨_, _, rfl⟩

/-- PRN and PRA append to `OUT` and write `pc`. -/
theorem print_cases {a : Byte} {s t : State} (h : exec (.prn a) s = .next t ∨ exec (.pra a) s = .next t) :
    (∃ o p, t = { s with out := o, pc := p }) ∨ ∃ f, t = s.latch f false := by
  rcases h with h | h
  · refine (exec_cases h).imp_left ?_
    rintro ⟨r, -, rfl⟩
    exact ⟨_, _, rfl⟩
  · refine (exec_cases h).imp_left ?_
    rintro ⟨r, -, rfl⟩
    exact ⟨_, _, rfl⟩

/-- A register other than the one written reads as before. -/
theorem RegFile.get_set_of_ne (f : RegFile) {r q : Reg} (v : Byte) (h : q ≠ r) : (f.set r v).get q = f.get q := by
  rw [RegFile.get_set, if_neg h]

/-- Settles O30: one register written and `pc` advanced, or a fault latched. -/
theorem registerInstructionFrame : Obligations.RegisterInstructionFrame := by
  intro i s t a hi h
  rcases exec_cases h with hc | ⟨f, rfl⟩
  · obtain ⟨r, v, n, hr, rfl⟩ := hc.of_registerOnly hi
    refine ⟨fun q hq => ?_, rfl, ⟨rfl, rfl, rfl, rfl⟩, fun _ => rfl, rfl, .inl ⟨rfl, rfl⟩⟩
    rw [hr] at hq
    exact RegFile.get_set_of_ne _ v fun e => hq (by simp [e])
  · exact ⟨fun _ _ => rfl, rfl, ⟨rfl, rfl, rfl, rfl⟩, fun _ => rfl, rfl, .inr ⟨f, rfl⟩⟩

/-- Settles O31: `FL`, `OUT` or nothing written beside `pc`, or a fault latched. -/
theorem compareJumpAndPrintFrame : Obligations.CompareJumpAndPrintFrame := by
  refine ⟨fun a b s t h => ?cmp, fun a s t h => ?print, fun i s t hi h => ?jump⟩
  case cmp =>
    rcases exec_cases h with ⟨v, rfl⟩ | ⟨f, rfl⟩
    · exact ⟨rfl, ⟨rfl, rfl, rfl, rfl⟩, fun _ => rfl, rfl, .inl ⟨rfl, rfl⟩⟩
    · exact ⟨rfl, ⟨rfl, rfl, rfl, rfl⟩, fun _ => rfl, rfl, .inr ⟨f, rfl⟩⟩
  case print =>
    rcases print_cases h with ⟨o, p, rfl⟩ | ⟨f, rfl⟩
    · exact ⟨rfl, rfl, ⟨rfl, rfl, rfl, rfl⟩, fun _ => rfl, .inl ⟨rfl, rfl⟩⟩
    · exact ⟨rfl, rfl, ⟨rfl, rfl, rfl, rfl⟩, fun _ => rfl, .inr ⟨f, rfl⟩⟩
  case jump =>
    rcases exec_cases h with hc | ⟨f, rfl⟩
    · obtain ⟨p, rfl⟩ := hc.of_isJump hi
      exact ⟨rfl, rfl, ⟨rfl, rfl, rfl, rfl⟩, fun _ => rfl, rfl, .inl ⟨rfl, rfl⟩⟩
    · exact ⟨rfl, rfl, ⟨rfl, rfl, rfl, rfl⟩, fun _ => rfl, rfl, .inr ⟨f, rfl⟩⟩

/-- Settles O32: one byte stored, at regA's value or below `SP`, or a fault latched. -/
theorem storingInstructionFrame : Obligations.StoringInstructionFrame := by
  refine ⟨fun a b ra s t hra h => ?store, fun a s t h => ?push⟩
  case store =>
    rcases exec_cases h with ⟨r, q, hr, -, rfl⟩ | ⟨f, rfl⟩
    · obtain rfl : ra = r := Option.some.inj (hra.symm.trans hr)
      exact ⟨fun x hx => (State.load_store ..).trans (if_neg hx), rfl, rfl, ⟨rfl, rfl, rfl, rfl⟩, rfl,
        .inl ⟨rfl, rfl⟩⟩
    · exact ⟨fun _ _ => rfl, rfl, rfl, ⟨rfl, rfl, rfl, rfl⟩, rfl, .inr ⟨f, rfl⟩⟩
  case push =>
    rcases push_or_call_cases h with ⟨v, p, rfl⟩ | ⟨f, rfl⟩
    · exact ⟨fun x hx => (State.load_push ..).trans (if_neg hx),
        fun r hr => RegFile.get_set_of_ne _ _ fun e => hr (by simp [e]), rfl, ⟨rfl, rfl, rfl, rfl⟩, rfl,
        .inl ⟨rfl, rfl⟩⟩
    · exact ⟨fun _ _ => rfl, fun _ _ => rfl, rfl, ⟨rfl, rfl, rfl, rfl⟩, rfl, .inr ⟨f, rfl⟩⟩

/-- Settles O33: no pop writes memory; POP writes its register and R7, RET only R7. -/
theorem poppingInstructionFrame : Obligations.PoppingInstructionFrame := by
  refine ⟨fun a s t h => ?pop, fun s t h => ?ret, fun s t h => ?iret⟩
  case pop =>
    rcases exec_cases h with ⟨r, hr, -, rfl⟩ | ⟨f, rfl⟩
    · refine ⟨fun q hq => ?_, rfl, ⟨rfl, rfl, rfl, rfl⟩, fun _ => rfl, rfl, .inl ⟨rfl, rfl⟩⟩
      rw [hr] at hq
      exact (RegFile.get_set_of_ne _ _ fun e => hq (by simp [e])).trans
        (RegFile.get_set_of_ne _ _ fun e => hq (by simp [e]))
    · exact ⟨fun _ _ => rfl, rfl, ⟨rfl, rfl, rfl, rfl⟩, fun _ => rfl, rfl, .inr ⟨f, rfl⟩⟩
  case ret =>
    rcases exec_cases h with ⟨-, rfl⟩ | ⟨f, rfl⟩
    · exact ⟨fun r hr => RegFile.get_set_of_ne _ _ fun e => hr (by simp [e]), rfl, ⟨rfl, rfl, rfl, rfl⟩,
        fun _ => rfl, rfl, .inl ⟨rfl, rfl⟩⟩
    · exact ⟨fun _ _ => rfl, rfl, ⟨rfl, rfl, rfl, rfl⟩, fun _ => rfl, rfl, .inr ⟨f, rfl⟩⟩
  case iret =>
    rcases exec_cases h with ⟨-, rfl⟩ | ⟨f, rfl⟩
    · exact ⟨rfl, rfl, rfl, fun _ => rfl, rfl, .inl ⟨rfl, rfl⟩⟩
    · exact ⟨rfl, rfl, rfl, fun _ => rfl, rfl, .inr ⟨f, rfl⟩⟩

/-- Settles O34: `IS`, nothing or `RUN` written beside `pc`; only INT can fault. -/
theorem intNopHltFrame : Obligations.IntNopHltFrame := by
  refine ⟨fun a s t h => ?int, fun i s t hi h => ?stop⟩
  case int =>
    rcases exec_cases h with ⟨r, -, -, rfl⟩ | ⟨f, rfl⟩
    · exact ⟨rfl, rfl, rfl, rfl, rfl, fun _ => rfl, rfl, .inl ⟨rfl, rfl⟩⟩
    · exact ⟨rfl, rfl, rfl, rfl, rfl, fun _ => rfl, rfl, .inr ⟨f, rfl⟩⟩
  case stop =>
    rcases hi with rfl | rfl
    · obtain rfl := Host.Outcome.next.inj h
      exact ⟨rfl, rfl, ⟨rfl, rfl, rfl, rfl⟩, fun _ => rfl, rfl, rfl, (Bool.and_true _).symm⟩
    · obtain rfl := Host.Outcome.next.inj h
      exact ⟨rfl, rfl, ⟨rfl, rfl, rfl, rfl⟩, fun _ => rfl, rfl, rfl, (Bool.and_false _).symm⟩

end Sys2Proof.Machine
end

section
/-! SUPPORT. What a completed instruction does to the special registers, in six forms, and to `pc`, by the column
"Sets PC"; then the statements of R23 to R33, R86 and R145. -/

namespace Sys2Proof.Machine

/-- The six forms of a completed instruction: registers, `pc` and memory only; or beside `pc` one of `FL`, `OUT`,
`IS` and `RUN`; or the return from an interrupt. -/
theorem Completed.special_cases {i : Instr} {s t : State} (h : Completed i s t) :
    (i ≠ .hlt ∧ ∃ f p m, t = { s with regs := f, pc := p, mem := m })
      ∨ (i.mnemonic = .cmp ∧ ∃ v p, t = { s with fl := v, pc := p })
      ∨ (i ≠ .hlt ∧ ∃ o p, t = { s with out := s.out ++ [o], pc := p })
      ∨ (i.mnemonic = .int ∧ ∃ b p, t = { s with is := s.is ||| b, pc := p })
      ∨ (i = .iret ∧ t = s.returned)
      ∨ (i = .hlt ∧ ∃ p, t = { s with run := false, pc := p }) := by
  cases i with
  | cmp =>
    obtain ⟨v, rfl⟩ := h
    exact .inr (.inl ⟨rfl, _, _, rfl⟩)
  | prn | pra =>
    obtain ⟨r, -, rfl⟩ := h
    exact .inr (.inr (.inl ⟨Instr.noConfusion, _, _, rfl⟩))
  | int =>
    obtain ⟨r, -, -, rfl⟩ := h
    exact .inr (.inr (.inr (.inl ⟨rfl, _, _, rfl⟩)))
  | iret =>
    obtain ⟨-, rfl⟩ := h
    exact .inr (.inr (.inr (.inr (.inl ⟨rfl, rfl⟩))))
  | hlt =>
    obtain rfl := h
    exact .inr (.inr (.inr (.inr (.inr ⟨rfl, _, rfl⟩))))
  | jmp | jeq | jne | jgt | jlt =>
    refine .inl ⟨Instr.noConfusion, ?_⟩
    rcases h with ⟨r, -, rfl⟩ | ⟨-, rfl⟩
    · exact ⟨_, _, _, rfl⟩
    · exact ⟨_, _, _, rfl⟩
  | nop =>
    obtain rfl := h
    exact .inl ⟨Instr.noConfusion, _, _, _, rfl⟩
  | ret =>
    obtain ⟨-, rfl⟩ := h
    exact .inl ⟨Instr.noConfusion, _, _, _, rfl⟩
  | ldi =>
    obtain ⟨r, -, rfl⟩ := h
    exact .inl ⟨Instr.noConfusion, _, _, _, rfl⟩
  | push | pop =>
    obtain ⟨r, -, -, rfl⟩ := h
    exact .inl ⟨Instr.noConfusion, _, _, _, rfl⟩
  | call | ld | st =>
    obtain ⟨r, -, -, -, rfl⟩ := h
    exact .inl ⟨Instr.noConfusion, _, _, _, rfl⟩
  | _ =>
    obtain ⟨r, v, -, rfl⟩ := h
    exact .inl ⟨Instr.noConfusion, _, _, _, rfl⟩

/-- Bits that are raised stay beside those that were set. -/
theorem or_and_left_self (a b : Byte) : (a ||| b) &&& a = a := by
  apply BitVec.eq_of_getLsbD_eq
  intro k _
  rw [BitVec.getLsbD_and, BitVec.getLsbD_or, Bool.and_comm]
  cases a.getLsbD k <;> rfl

/-- Settles O35: each of the six forms, and a latched fault, which clears `RUN`. -/
theorem whoWritesTheSpecialRegisters : Obligations.WhoWritesTheSpecialRegisters := by
  intro i s t h
  have silent : ∃ more, s.out = s.out ++ more ∧ more.length ≤ 1 := ⟨[], (List.append_nil _).symm, Nat.zero_le _⟩
  rcases exec_cases h with hc | ⟨f, rfl⟩
  · rcases hc.special_cases with ⟨-, f, p, m, rfl⟩ | ⟨hi, v, p, rfl⟩ | ⟨-, o, p, rfl⟩ | ⟨hi, b, p, rfl⟩ | ⟨rfl, rfl⟩
      | ⟨rfl, p, rfl⟩
    · exact ⟨.inl rfl, .inl rfl, rfl, rfl, .inl rfl, silent, id⟩
    · exact ⟨.inr (.inl hi), .inl rfl, rfl, rfl, .inl rfl, silent, id⟩
    · exact ⟨.inl rfl, .inl rfl, rfl, rfl, .inl rfl, ⟨[o], rfl, le_rfl⟩, id⟩
    · exact ⟨.inl rfl, .inl rfl, rfl, rfl, .inr ⟨hi, or_and_left_self s.is b⟩, silent, id⟩
    · exact ⟨.inr (.inr rfl), .inr rfl, rfl, rfl, .inl rfl, silent, id⟩
    · exact ⟨.inl rfl, .inl rfl, rfl, rfl, .inl rfl, silent, fun h => absurd h Bool.false_ne_true⟩
  · exact ⟨.inl rfl, .inl rfl, rfl, rfl, .inl rfl, silent, fun h => absurd h Bool.false_ne_true⟩

/-- A control transfer loads an address (R145). -/
theorem zext9_le (v : Byte) : (zext9 v).toNat ≤ 0xFF := (zext9_toNat v).trans_le (Nat.le_of_lt_succ v.isLt)

/-- The default advance (R86). -/
theorem Completed.pc_of_no {i : Instr} {s t : State} (h : Completed i s t) (hi : i.mnemonic.setsPc = .no) :
    t.pc = s.pc + BitVec.ofNat 9 (1 + i.operands.length) := by
  cases i with
  | call | ret | jmp | iret | jeq | jne | jgt | jlt => cases hi
  | ldi | prn | pra =>
    obtain ⟨r, -, rfl⟩ := h
    rfl
  | ld | st =>
    obtain ⟨r, q, -, -, rfl⟩ := h
    rfl
  | cmp =>
    obtain ⟨v, rfl⟩ := h
    rfl
  | push | pop | int =>
    obtain ⟨r, -, -, rfl⟩ := h
    rfl
  | nop | hlt =>
    obtain rfl := h
    rfl
  | _ =>
    obtain ⟨r, v, -, rfl⟩ := h
    rfl

/-- A conditional jump advances past its one operand byte or loads a register (R145). -/
theorem Completed.pc_of_whenTaken {i : Instr} {s t : State} (h : Completed i s t)
    (hi : i.mnemonic.setsPc = .whenTaken) :
    t.pc = s.pc + BitVec.ofNat 9 (1 + i.operands.length) ∨ ∃ r, t.pc = zext9 (s.reg r) := by
  cases i with
  | jeq | jne | jgt | jlt =>
    rcases h with ⟨r, -, rfl⟩ | ⟨-, rfl⟩
    · exact .inr ⟨r, rfl⟩
    · exact .inl rfl
  | _ => cases hi

/-- The other control transfers load a byte (R145). -/
theorem Completed.pc_of_yes {i : Instr} {s t : State} (h : Completed i s t) (hi : i.mnemonic.setsPc = .yes) :
    t.pc.toNat ≤ 0xFF := by
  cases i with
  | call =>
    obtain ⟨r, -, -, -, rfl⟩ := h
    exact zext9_le _
  | ret | iret =>
    obtain ⟨-, rfl⟩ := h
    exact zext9_le _
  | jmp =>
    rcases h with ⟨r, -, rfl⟩ | ⟨hne, -⟩
    · exact zext9_le _
    · exact absurd rfl hne
  | _ => cases hi

/-- An instruction of a machine without a fault that leaves none has completed. -/
theorem completed_of_fault_none {i : Instr} {s t : State} (h : exec i s = .next t) (ht : t.fault = none) :
    Completed i s t := by
  rcases exec_cases h with hc | ⟨f, rfl⟩
  · exact hc
  · cases ht

/-- Settles O36: the three columns. -/
theorem pcAdvanceOrTarget : Obligations.PcAdvanceOrTarget := by
  intro i s t h hkept hnone
  have hc := completed_of_fault_none h (hkept.trans hnone)
  refine ⟨hc.pc_of_no, fun hi => (hc.pc_of_whenTaken hi).imp_left fun hpc => ?_, hc.pc_of_yes⟩
  have hlen : i.operands.length = 1 := by
    cases i with
    | jeq | jne | jgt | jlt => rfl
    | _ => cases hi
  rw [hpc, hlen]
  rfl

end Sys2Proof.Machine
end

section
/-! SUPPORT. Two runs of one instruction from states that differ in `IS`, `IM` and `OUT` only; then the statement
of R25, R26 and R31. -/

namespace Sys2Proof.Machine

/-- The state with other contents of `IS`, `IM` and `OUT`. -/
def State.withControl (s : State) (is im : Byte) (out : List OutRecord) : State :=
  { s with is := is, im := im, out := out }

/-- When the run from `s` answers `r`, the run from `s.withControl is im out` answers `r'`: the same state but for
`IS`, `IM` and `OUT`, to which both runs do the same. -/
def Parallel (s : State) (is im : Byte) (out : List OutRecord) (r r' : Result) : Prop :=
  ∀ t, r = .next t → ∃ (raised : Byte) (printed : List OutRecord) (mask : Byte),
    t.is = s.is ||| raised ∧ t.out = s.out ++ printed
      ∧ (t.im = s.im ∧ mask = im ∨ t.im = s.imSaved ∧ mask = s.imSaved)
      ∧ r' = .next (t.withControl (is ||| raised) mask (out ++ printed))

variable {s : State} {is im : Byte} {out : List OutRecord}

/-- A state that differs from `s` in other components only. -/
theorem parallel_next {t : State} (his : t.is = s.is) (him : t.im = s.im) (hout : t.out = s.out) :
    Parallel s is im out (.next t) (.next (t.withControl is im out)) := by
  rintro _ ⟨⟩
  refine ⟨0#8, [], im, ?_, ?_, .inl ⟨him, rfl⟩, ?_⟩
  · rw [his, BitVec.or_zero]
  · rw [hout, List.append_nil]
  · rw [BitVec.or_zero, List.append_nil]

theorem parallel_raise (f : Fault) : Parallel s is im out (raise f s) (raise f (s.withControl is im out)) :=
  parallel_next (t := s.latch f false) rfl rfl rfl

/-- A test both runs decide alike. -/
theorem parallel_ite {c : Prop} [Decidable c] {r r' q q' : Result} (h : Parallel s is im out r r')
    (h' : Parallel s is im out q q') : Parallel s is im out (if c then r else q) (if c then r' else q') := by
  split
  · exact h
  · exact h'

theorem parallel_withReg {a : Byte} {body body' : Reg → Result} (h : ∀ r, Parallel s is im out (body r) (body' r)) :
    Parallel s is im out (withReg a s body) (withReg a (s.withControl is im out) body') := by
  unfold withReg
  cases Reg.ofByte a with
  | none => exact parallel_raise _
  | some r => exact h r

theorem parallel_withRegs {a b : Byte} {body body' : Reg → Reg → Result}
    (h : ∀ r q, Parallel s is im out (body r q) (body' r q)) :
    Parallel s is im out (withRegs a b s body) (withRegs a b (s.withControl is im out) body') :=
  parallel_withReg fun r => parallel_withReg (h r)

/-- The ALU's answer is a function of the operands, so both runs write it back or raise its fault. -/
theorem parallel_aluFinish (ra : Reg) (n : Nat) (o : Except Fault AluOut) :
    Parallel s is im out (aluFinish ra n s o) (aluFinish ra n (s.withControl is im out) o) := by
  cases o with
  | error f => exact parallel_raise f
  | ok o => exact parallel_next (t := (s.writeBack ra o).advance n) rfl rfl rfl

theorem parallel_aluTwo (op : AluOp) (a b : Byte) :
    Parallel s is im out (aluTwo op a b s) (aluTwo op a b (s.withControl is im out)) :=
  parallel_withRegs fun ra _ => parallel_aluFinish ra 2 _

theorem parallel_aluOne (op : AluOp) (a : Byte) :
    Parallel s is im out (aluOne op a s) (aluOne op a (s.withControl is im out)) :=
  parallel_withReg fun ra => parallel_aluFinish ra 1 _

theorem parallel_jumpWhen (c : Bool) (a : Byte) :
    Parallel s is im out (jumpWhen c a s) (jumpWhen c a (s.withControl is im out)) := by
  refine parallel_withReg fun ra => ?_
  cases c with
  | false => exact parallel_next (t := s.advance 1) rfl rfl rfl
  | true => exact parallel_next (t := s.jump (s.reg ra)) rfl rfl rfl

theorem parallel_printReg (mode : OutMode) (a : Byte) :
    Parallel s is im out (printReg mode a s) (printReg mode a (s.withControl is im out)) := by
  refine parallel_withReg fun ra => ?_
  rintro _ ⟨⟩
  exact ⟨0#8, [⟨mode, s.reg ra⟩], im, BitVec.or_zero.symm, rfl, .inl ⟨rfl, rfl⟩, by rw [BitVec.or_zero]; rfl⟩

theorem parallel_execInt (a : Byte) : Parallel s is im out (execInt a s) (execInt a (s.withControl is im out)) := by
  refine parallel_withReg fun ra => parallel_ite (parallel_raise _) ?_
  rintro _ ⟨⟩
  exact ⟨lineBit (s.reg ra).toNat, [], im, rfl, (List.append_nil _).symm, .inl ⟨rfl, rfl⟩,
    by rw [List.append_nil]; rfl⟩

theorem parallel_returnFromInterrupt :
    Parallel s is im out (returnFromInterrupt s) (returnFromInterrupt (s.withControl is im out)) := by
  cases hp : s.canPop 9 with
  | false =>
    rw [returnFromInterrupt_underflow hp, returnFromInterrupt_underflow (s := s.withControl is im out) hp]
    exact parallel_raise _
  | true =>
    rw [returnFromInterrupt_returned hp, returnFromInterrupt_returned (s := s.withControl is im out) hp]
    rintro _ ⟨⟩
    exact ⟨0#8, [], s.imSaved, BitVec.or_zero.symm, (List.append_nil _).symm, .inr ⟨rfl, rfl⟩,
      by rw [BitVec.or_zero, List.append_nil]; rfl⟩

/-- No instruction reads `IS`, `IM` or `OUT`: its tests and the values it writes are those of the other run. -/
theorem parallel_exec (i : Instr) : Parallel s is im out (exec i s) (exec i (s.withControl is im out)) := by
  cases i with
  | ldi a imm => exact parallel_withReg fun ra => parallel_next (t := (s.setReg ra imm).advance 2) rfl rfl rfl
  | ld a b =>
    exact parallel_withRegs fun ra rb =>
      parallel_next (t := (s.setReg ra (s.load (s.reg rb))).advance 2) rfl rfl rfl
  | st a b =>
    exact parallel_withRegs fun ra rb => parallel_next (t := (s.store (s.reg ra) (s.reg rb)).advance 2) rfl rfl rfl
  | prn a | pra a => exact parallel_printReg _ a
  | add a b | sub a b | mul a b | div a b | mod a b | and a b | or a b | xor a b | cmp a b =>
    exact parallel_aluTwo _ a b
  | inc a | dec a | not a => exact parallel_aluOne _ a
  | push a =>
    exact parallel_withReg fun ra => parallel_ite (parallel_raise _)
      (parallel_next (t := (s.push (s.decSp.reg ra)).advance 1) rfl rfl rfl)
  | pop a =>
    exact parallel_withReg fun ra => parallel_ite (parallel_raise _)
      (parallel_next (t := (s.popReg ra).advance 1) rfl rfl rfl)
  | call a =>
    exact parallel_withReg fun ra => parallel_ite (parallel_raise _) (parallel_ite (parallel_raise _)
      (parallel_next (t := (s.push (lowByte (s.pc + 2))).jump ((s.push (lowByte (s.pc + 2))).reg ra)) rfl rfl rfl))
  | ret => exact parallel_ite (parallel_raise _) (parallel_next (t := s.popPc) rfl rfl rfl)
  | jmp a | jeq a | jne a | jgt a | jlt a => exact parallel_jumpWhen _ a
  | int a => exact parallel_execInt a
  | iret => exact parallel_returnFromInterrupt
  | nop => exact parallel_next (t := s.advance 0) rfl rfl rfl
  | hlt => exact parallel_next (t := { s with run := false }.advance 0) rfl rfl rfl

/-- Settles O37: `parallel_exec` over all instructions. -/
theorem instructionsDoNotReadPendingMaskOrOutput : Obligations.InstructionsDoNotReadPendingMaskOrOutput :=
  fun i _ t _ _ _ h => parallel_exec i t h

end Sys2Proof.Machine
end

section
/-! SUPPORT. Every instruction and every step answers a state; then the statement of R93 and R168. -/

namespace Sys2Proof.Machine

theorem raise_next (f : Fault) (s : State) : ∃ t, raise f s = .next t := ⟨_, rfl⟩

theorem ite_next {c : Prop} [Decidable c] {r q : Result} (h : ∃ t, r = .next t) (h' : ∃ t, q = .next t) :
    ∃ t, (if c then r else q) = .next t := by
  split
  · exact h
  · exact h'

theorem withReg_next {a : Byte} {s : State} {body : Reg → Result} (h : ∀ r, ∃ t, body r = .next t) :
    ∃ t, withReg a s body = .next t := by
  unfold withReg
  cases Reg.ofByte a with
  | none => exact raise_next _ s
  | some r => exact h r

theorem withRegs_next {a b : Byte} {s : State} {body : Reg → Reg → Result} (h : ∀ r q, ∃ t, body r q = .next t) :
    ∃ t, withRegs a b s body = .next t := withReg_next fun r => withReg_next (h r)

theorem aluFinish_next (ra : Reg) (n : Nat) (s : State) (o : Except Fault AluOut) :
    ∃ t, aluFinish ra n s o = .next t := by
  cases o with
  | error f => exact raise_next f s
  | ok o => exact ⟨_, rfl⟩

/-- Every arm of `exec` has a meaning and ends in a state, a latched fault included (log entry 7). -/
theorem exec_next (i : Instr) (s : State) : ∃ t, exec i s = .next t := by
  cases i with
  | ldi | prn | pra | jmp | jeq | jne | jgt | jlt => exact withReg_next fun _ => ⟨_, rfl⟩
  | ld | st => exact withRegs_next fun _ _ => ⟨_, rfl⟩
  | add | sub | mul | div | mod | and | or | xor | cmp => exact withRegs_next fun _ _ => aluFinish_next ..
  | inc | dec | not => exact withReg_next fun _ => aluFinish_next ..
  | push | pop | int => exact withReg_next fun _ => ite_next (raise_next ..) ⟨_, rfl⟩
  | call => exact withReg_next fun _ => ite_next (raise_next ..) (ite_next (raise_next ..) ⟨_, rfl⟩)
  | ret | iret => exact ite_next (raise_next ..) ⟨_, rfl⟩
  | nop | hlt => exact ⟨_, rfl⟩

theorem afterInstruction_next_next (u : State) : ∃ t, afterInstruction (.next u) = .next t := by
  rw [afterInstruction_next]
  exact ite_next (interruptCheck_next u) ⟨u, rfl⟩

/-- A step does nothing, latches the fetch's fault, or runs an instruction and checks for interrupts. -/
theorem step_next (s : State) : ∃ t, step s = .next t := by
  unfold step
  refine ite_next ?_ ⟨s, rfl⟩
  cases fetch s with
  | error f => exact raise_next f s
  | ok i =>
    obtain ⟨u, hu⟩ := exec_next i s
    change ∃ t, afterInstruction (exec i s) = .next t
    rw [hu]
    exact afterInstruction_next_next u

/-- Settles O43: `step_next` and `exec_next`. -/
theorem everyStepAnswersAState : Obligations.EveryStepAnswersAState := ⟨step_next, exec_next⟩

end Sys2Proof.Machine
end

section
/-! SUPPORT. When a step runs nothing, what it runs, and what it runs when an instruction's words stand at `pc`;
then the statements of R81, R85, R87, R93 and R50, R60. -/

namespace Sys2Proof.Machine

open Claims

/-- A machine that may not run does not change (R81). -/
theorem step_of_not_runnable {s : State} (h : s.runnable = false) : step s = .next s := by
  rw [step, if_neg (by rw [h]; decide)]

theorem State.runnable_false {s : State} (h : s.run = false ∨ s.fault ≠ none) : s.runnable = false := by
  rw [← Bool.not_eq_true, State.runnable_iff]
  rintro ⟨hrun, hfault⟩
  rcases h with h | h
  · exact Bool.false_ne_true (h.symm.trans hrun)
  · exact h hfault

/-- Settles O38: neither machine may run. -/
theorem stoppedMachineStaysStopped : Obligations.StoppedMachineStaysStopped := fun _ h =>
  step_of_not_runnable (State.runnable_false h)

/-- What the decoder answers is fetched (R83). -/
theorem fetch_of_decode {s : State} {i : Instr} {rest : List Byte}
    (h : decode s.cfg.opcodeMap s.fetchWindow = .ok (i, rest)) : fetch s = .ok i := by
  rw [fetch, h]

/-- Settles O39: every instruction answers a state, which the interrupt check follows unless it holds a fault. -/
theorem stepRunsTheDecodedInstruction : Obligations.StepRunsTheDecodedInstruction := by
  intro s i rest hrun hfault hdecode
  obtain ⟨t, ht⟩ := exec_next i s
  exact ⟨t, ht, by rw [step_of_fetch_ok hrun hfault (fetch_of_decode hdecode), ht, afterInstruction_next]⟩

/-- An instruction whose words stand at `pc` is fetched, wherever it fits (R50, R60, R84). -/
theorem fetch_of_words_at_pc {s : State} {i : Instr} (hm : s.cfg.opcodeMap.Legal)
    (hfits : s.pc.toNat + (encode s.cfg.opcodeMap i).length ≤ 256)
    (hwords : ∀ k v, (encode s.cfg.opcodeMap i)[k]? = some v → byteAt s k = v) : fetch s = .ok i := by
  have hopcode : s.cfg.opcodeMap.byteOf i.mnemonic = byteAt s 0 := (hwords 0 _ rfl).symm
  have hlen : (encode s.cfg.opcodeMap i).length = i.mnemonic.count + 1 := by
    rw [encode, List.length_cons, i.operands_length]
  have operand : ∀ k, k < i.mnemonic.count → byteAt s (k + 1) = (i.operands ++ []).getD k 0 := by
    intro k hk
    rw [← i.operands_length] at hk
    rw [List.append_nil, ← List.getElem_eq_getD (h := hk)]
    exact hwords (k + 1) _ (List.getElem?_eq_getElem hk)
  rw [fetch_of_operands_in hm hopcode (by omega), assemble_congr (operand 0) (operand 1), assemble_operands]

/-- Settles O41: the words at `pc` are fetched as their instruction, which the step runs. -/
theorem stepRunsTheInstructionInMemory : Obligations.StepRunsTheInstructionInMemory :=
  fun _ _ hm hrun hfault hfits hwords => step_of_fetch_ok hrun hfault (fetch_of_words_at_pc hm hfits hwords)

end Sys2Proof.Machine
end

section
/-! SUPPORT. The line the interrupt check takes and what its entry leaves; then the statements of R172 to R175. -/

namespace Sys2Proof.Machine

theorem interruptCheck_of_none {s : State} (h : lowestLine s.deliverable = none) : interruptCheck s = .next s := by
  rw [interruptCheck, h]

theorem interruptCheck_of_some {s : State} {n : Line} (h : lowestLine s.deliverable = some n) :
    interruptCheck s = takeInterrupt n s := by
  rw [interruptCheck, h]

/-- A line is deliverable when it is pending and enabled (R172). -/
theorem State.deliverable_iff (s : State) (k : Line) :
    s.deliverable.getLsbD k.val = true ↔ s.is.getLsbD k.val = true ∧ s.im.getLsbD k.val = true := by
  rw [State.deliverable_getLsbD, Bool.and_eq_true]

theorem State.deliverable_false_iff (s : State) (k : Line) :
    s.deliverable.getLsbD k.val = false ↔ ¬(s.is.getLsbD k.val = true ∧ s.im.getLsbD k.val = true) := by
  rw [← Bool.not_eq_true, State.deliverable_iff]

/-- Settles O44: the least line with its bit set, if there is one. -/
theorem lowestDeliverableLineIsTaken : Obligations.LowestDeliverableLineIsTaken := by
  intro s
  constructor
  · intro hnone
    exact interruptCheck_of_none (lowestLine_none.mpr fun k => (s.deliverable_false_iff k).mpr (hnone k))
  · intro n his him hleast
    exact interruptCheck_of_some (lowestLine_some.mpr
      ⟨(s.deliverable_iff n).mpr ⟨his, him⟩, fun k hk => (s.deliverable_false_iff k).mpr (hleast k hk)⟩)

/-- No line is found exactly in a byte of zeros. -/
theorem lowestLine_none_iff_zero {d : Byte} : lowestLine d = none ↔ d = 0 := by
  refine ⟨fun h => BitVec.eq_of_getLsbD_eq fun k hk => ?_, fun h => by rw [h]; rfl⟩
  rw [lowestLine_none.mp h ⟨k, hk⟩]
  exact BitVec.getLsbD_zero.symm

/-- Under a zero mask no line is deliverable (R172). -/
theorem lowestLine_none_of_im_zero {s : State} (h : s.im = 0#8) : lowestLine s.deliverable = none := by
  rw [State.deliverable, h, BitVec.and_zero]
  rfl

/-- Byte `k` of the frame stands `k + 1` below the old `SP` (R178). -/
theorem State.load_entered_below {s : State} (n : Line) {k : Nat} (hsp : 9 ≤ s.sp.toNat) (hk : k < 9) :
    (s.entered n).load (s.sp - BitVec.ofNat 8 (k + 1)) = s.entryFrame.getD k 0 := by
  have hk8 : (BitVec.ofNat 8 (k + 1)).toNat = k + 1 := Nat.mod_eq_of_lt (by omega)
  have haddr : (s.sp - BitVec.ofNat 8 (k + 1)).toNat = s.sp.toNat - (k + 1) := by
    rw [BitVec.toNat_sub_of_le (BitVec.le_def.mpr (by omega)), hk8]
  have hlen : s.entryFrame.length = 9 := rfl
  rw [State.load_entered n hsp, haddr, hlen, if_pos (by omega)]
  congr 1
  omega

/-- The entry clears the bit of its line and no other (R174). -/
theorem State.entered_is_getLsbD (n : Line) (s : State) {k : Nat} (hk : k < 8) :
    (s.entered n).is.getLsbD k = (s.is.getLsbD k && decide (k ≠ n.val)) := by
  have hbit := lineBit_getLsbD (Nat.le_of_lt_succ n.isLt) hk
  rw [State.entered_eq]
  change (s.is &&& ~~~(lineBit n.val)).getLsbD k = _
  rw [BitVec.getLsbD_and, BitVec.getLsbD_not, hbit, decide_eq_true hk, Bool.true_and, decide_not]

/-- The entry goes to the vector's byte, read after the pushes (R174; D29). -/
theorem State.entered_pc (n : Line) (s : State) :
    (s.entered n).pc = zext9 ((s.entered n).load (BitVec.ofNat 8 (0xF8 + n.val))) := by
  rw [BitVec.ofNat_add]
  rfl

/-- Settles O45: the frame byte by byte, and the fields of `State.entered_eq`. -/
theorem entrySavesTheFrame : Obligations.EntrySavesTheFrame := by
  intro n s hpc hroom
  have hsp : 9 ≤ s.sp.toNat := (Nat.le_add_left ..).trans hroom
  have frame : ∀ k < 9, (s.entered n).load (s.sp - BitVec.ofNat 8 (k + 1)) = s.entryFrame.getD k 0 :=
    fun k hk => State.load_entered_below n hsp hk
  refine ⟨s.entered n, takeInterrupt_entered (decide_eq_true hpc) (State.canPush_true hroom), State.entered_eq n s,
    ?pcByte, frame 1 (by decide), frame 2 (by decide), frame 3 (by decide), frame 4 (by decide), frame 5 (by decide),
    frame 6 (by decide), frame 7 (by decide), frame 8 (by decide), fun a ha => ?outside,
    fun k hk => State.entered_is_getLsbD n s hk, ?vector⟩
  case pcByte => exact (congrArg BitVec.toNat (frame 0 (by decide))).trans (lowByte_toNat hpc)
  case outside =>
    have hlen : s.entryFrame.length = 9 := rfl
    rw [State.load_entered n hsp, hlen, if_neg (by omega)]
  case vector => exact (congrArg BitVec.toNat (State.entered_pc n s)).trans (zext9_toNat _)

/-- Settles O46: the guard on `pc` comes first. -/
theorem entryGuardsInOrder : Obligations.EntryGuardsInOrder := by
  intro n s
  constructor
  · intro hpc
    exact if_pos (decide_eq_false (Nat.not_le.mpr hpc))
  · intro hpc hroom
    exact takeInterrupt_overflow n (decide_eq_true hpc) (State.canPush_false hroom)

/-- A completed instruction is followed by the interrupt check (R87). -/
theorem step_of_completed {s u : State} {i : Instr} (hrun : s.run = true) (hfault : s.fault = none)
    (hfetch : fetch s = .ok i) (hexec : exec i s = .next u) (hu : u.fault = none) : step s = interruptCheck u := by
  rw [step_of_fetch_ok hrun hfault hfetch, hexec, afterInstruction_next, if_pos hu]

/-- Settles O48: the entry clears the mask; under a zero mask nothing is deliverable, and only IRET writes the
mask. -/
theorem interruptsNeverNest : Obligations.InterruptsNeverNest := by
  constructor
  · intro n s t htake hkept hnone
    rcases takeInterrupt_cases htake with ⟨-, -, rfl⟩ | ⟨f, rfl⟩
    · rw [State.entered_eq]
    · cases hkept.trans hnone
  · intro s t i hrun hfault him hfetch hiret hstep
    obtain ⟨u, hexec⟩ := exec_next i s
    obtain ⟨-, hmask, -⟩ := whoWritesTheSpecialRegisters i s u hexec
    have hu : u.im = 0 := (hmask.resolve_right hiret).trans him
    have hcheck : interruptCheck u = .next u := interruptCheck_of_none (lowestLine_none_of_im_zero hu)
    rw [step_of_fetch_ok hrun hfault hfetch, hexec, afterInstruction_next, hcheck, ite_self] at hstep
    obtain rfl := Host.Outcome.next.inj hstep
    exact ⟨hexec, hu⟩

/-- Settles O49: the check that follows HLT finds the least deliverable line, and its entry is the one of
`entrySavesTheFrame` from the state HLT left. -/
theorem hltStillEntersADeliverableInterrupt : Obligations.HltStillEntersADeliverableInterrupt := by
  intro s rest hrun hfault hpc hroom hdecode hpending
  obtain ⟨u, hu⟩ : ∃ u : State, u = { s with run := false, pc := s.pc + 1 } := ⟨_, rfl⟩
  have hexec : exec .hlt s = .next u := hu ▸ rfl
  have hupc : u.pc.toNat = s.pc.toNat + 1 := by
    rw [hu]
    exact BitVec.toNat_add_of_lt (by change s.pc.toNat + 1 < 512; omega)
  have hstep : step s = interruptCheck u :=
    step_of_completed hrun hfault (fetch_of_decode hdecode) hexec (hu ▸ hfault)
  cases hline : lowestLine u.deliverable with
  | none =>
    rw [hu] at hline
    exact absurd (lowestLine_none_iff_zero.mp hline) hpending
  | some n =>
    obtain ⟨hset, hleast⟩ := lowestLine_some.mp hline
    obtain ⟨t, htake, ht, hpcByte, hfl, h0, h1, h2, h3, h4, h5, h6, hmem, his, hvector⟩ :=
      entrySavesTheFrame n u (by omega) (hu ▸ hroom)
    rw [interruptCheck_of_some hline, htake] at hstep
    rw [hupc] at hpcByte
    obtain ⟨hisN, himN⟩ := (u.deliverable_iff n).mp hset
    have hlower := fun k hk => (u.deliverable_false_iff k).mp (hleast k hk)
    subst hu
    exact ⟨n, t, hisN, himN, hlower, hstep, ht, hvector, his, hpcByte, hfl, h0, h1, h2, h3, h4, h5, h6, hmem⟩

/-- No instruction clears a pending bit (R26). -/
theorem exec_keeps_pending {i : Instr} {s u : State} (h : exec i s = .next u) {k : Nat}
    (hk : s.is.getLsbD k = true) : u.is.getLsbD k = true := by
  obtain ⟨-, -, -, -, his, -⟩ := whoWritesTheSpecialRegisters i s u h
  rcases his with his | ⟨-, hkept⟩
  · rw [his, hk]
  · rw [← hkept, BitVec.getLsbD_and, Bool.and_eq_true] at hk
    exact hk.1

/-- An entry clears the bit of its own line only. -/
theorem takeInterrupt_clears_own {n k : Line} {u t : State} (h : takeInterrupt n u = .next t)
    (hu : u.is.getLsbD k.val = true) (ht : t.is.getLsbD k.val = false) : k = n := by
  rcases takeInterrupt_cases h with ⟨-, -, rfl⟩ | ⟨f, rfl⟩
  · rw [State.entered_is_getLsbD n u k.isLt, hu, Bool.true_and, decide_eq_false_iff_not, not_not] at ht
    exact Fin.ext ht
  · exact absurd (hu.symm.trans ht) Bool.false_ne_true.symm

/-- Settles O50: of what a step can do only an entry clears a pending bit, its own line's. -/
theorem pendingBitsClearedOnlyByTheirEntry : Obligations.PendingBitsClearedOnlyByTheirEntry := by
  constructor
  · intro s t k hstep hs ht
    have kept : ∀ {u : State}, u.is.getLsbD k.val = true → u ≠ t := by
      rintro u hu rfl
      exact Bool.false_ne_true (ht.symm.trans hu)
    rcases step_cases hstep with ⟨-, rfl⟩ | ⟨-, f, -, rfl⟩ | ⟨-, i, u, hfetch, hexec, hcase⟩
    · exact absurd rfl (kept hs)
    · exact absurd rfl (kept (u := s.latch f false) hs)
    · have hu := exec_keeps_pending hexec hs
      rcases hcase with ⟨-, rfl⟩ | ⟨-, -, rfl⟩ | ⟨-, n, hline, htake⟩
      · exact absurd rfl (kept hu)
      · exact absurd rfl (kept hu)
      · obtain rfl := takeInterrupt_clears_own htake hu ht
        exact ⟨i, u, hfetch, hexec, hu, ((u.deliverable_iff k).mp (lowestLine_some.mp hline).1).2, htake⟩
  · intro s e
    cases e with
    | raiseLines b => exact or_and_left_self s.is b
    | stop => exact BitVec.and_self

end Sys2Proof.Machine
end

section
/-! SUPPORT. The invariant at reset, along every step and every event, and so in every reachable state; then the
statements of R22, R27, R29, R35, R91 and R92. -/

namespace Sys2Proof.Machine

/-- Settles O51: `State.resetWith` field by field. -/
theorem resetValues : Obligations.ResetValues := by
  refine ⟨fun c image r => ?_, fun _ _ => rfl, rfl⟩
  cases r with
  | r7 => rfl
  | _ => rfl

theorem State.Inv.resetWith {c : Config} {image : Memory} (hc : c.Legal) (himage : image.wf) :
    (State.resetWith c image).Inv where
  config := hc
  memory := himage
  pc := Nat.zero_le _
  fault_stops := nofun
  fault_pc := nofun
  saved_mask := rfl
  mask := .inl rfl

/-- Settles O52: the default parameters are legal, and a memory that lists nothing is canonical. -/
theorem invariantHoldsAtReset : Obligations.InvariantHoldsAtReset :=
  ⟨fun _ _ hc himage => .resetWith hc himage, .resetWith (by decide) Memory.nil_wf⟩

/-- A latched fault stops the machine and holds its `pc` (R168, R169). -/
theorem State.Inv.latch {s : State} (h : s.Inv) (f : Fault) (e : Bool) : (s.latch f e).Inv where
  config := h.config
  memory := h.memory
  pc := h.pc
  fault_stops := fun _ => rfl
  fault_pc := by
    rintro r ⟨⟩
    rfl
  saved_mask := h.saved_mask
  mask := h.mask

/-- The advance past an instruction that stands whole inside memory ends at 0x100 at the latest (R22). -/
theorem pc_advance_le {p : PcWord} {n : Nat} (h : p.toNat + n ≤ 0xFF) :
    (p + BitVec.ofNat 9 (1 + n)).toNat ≤ 0x100 := by
  rw [BitVec.toNat_add, BitVec.toNat_ofNat]
  omega

/-- A fetched instruction that completes leaves `pc` at 0x100 or below (R22, R86, R145). -/
theorem Completed.pc_le {i : Instr} {s t : State} (hm : s.cfg.opcodeMap.Legal) (hfetch : fetch s = .ok i)
    (h : Completed i s t) : t.pc.toNat ≤ 0x100 := by
  have hadvance := pc_advance_le (fetch_ok_bounds hm hfetch)
  cases hi : i.mnemonic.setsPc with
  | no => exact (congrArg BitVec.toNat (h.pc_of_no hi)).trans_le hadvance
  | whenTaken =>
    rcases h.pc_of_whenTaken hi with hpc | ⟨r, hpc⟩
    · exact (congrArg BitVec.toNat hpc).trans_le hadvance
    · exact (congrArg BitVec.toNat hpc).trans_le ((zext9_le _).trans (by decide))
  | yes => exact (h.pc_of_yes hi).trans (by decide)

/-- A completed instruction loads the mask from `IM_SAVED` or leaves it (R25). -/
theorem Completed.im_cases {i : Instr} {s t : State} (h : Completed i s t) : t.im = s.im ∨ t.im = s.imSaved := by
  rcases h.special_cases with ⟨-, f, p, m, rfl⟩ | ⟨-, v, p, rfl⟩ | ⟨-, o, p, rfl⟩ | ⟨-, b, p, rfl⟩ | ⟨-, rfl⟩
    | ⟨-, p, rfl⟩
  · exact .inl rfl
  · exact .inl rfl
  · exact .inl rfl
  · exact .inl rfl
  · exact .inr rfl
  · exact .inl rfl

/-- A fetched instruction of a machine without a fault keeps the invariant. -/
theorem State.Inv.exec {i : Instr} {s u : State} (h : s.Inv) (hfault : s.fault = none) (hfetch : fetch s = .ok i)
    (hexec : exec i s = .next u) : u.Inv := by
  obtain ⟨-, -, hsaved, hcfg, -⟩ := whoWritesTheSpecialRegisters i s u hexec
  rcases exec_cases hexec with hc | ⟨f, rfl⟩
  · have hnone : u.fault = none := hc.fault_eq.trans hfault
    refine ⟨hcfg ▸ h.config, exec_mem_wf hexec h.memory, hc.pc_le h.config.1 hfetch, ?_, ?_, ?_, ?_⟩
    · rw [hnone]
      nofun
    · rw [hnone]
      nofun
    · rw [hsaved, hcfg, h.saved_mask]
    · rw [hcfg]
      rcases hc.im_cases with him | him
      · exact him ▸ h.mask
      · exact .inl (him.trans h.saved_mask)
  · exact h.latch f false

/-- An entry under a mask that is not zero keeps the invariant: that mask is `IM_RESET`, so `IM_SAVED` holds it
afterwards (R27, R174). -/
theorem State.Inv.entered {u : State} (h : u.Inv) (hfault : u.fault = none) (him : u.im ≠ 0) (n : Line) :
    (u.entered n).Inv := by
  have hnone : (u.entered n).fault = none := (State.entered_fault n u).trans hfault
  refine ⟨?_, ?_, (zext9_le _).trans (by decide), ?_, ?_, ?_, ?_⟩
  · rw [State.entered_eq]
    exact h.config
  · exact State.pushAll_wf
      (s := { u with imSaved := u.im, im := 0x00, is := u.is &&& ~~~(lineBit n.val) }) h.memory _
  · rw [hnone]
    nofun
  · rw [hnone]
    nofun
  · rw [State.entered_eq]
    exact h.mask.resolve_right him
  · rw [State.entered_eq]
    exact .inr rfl

/-- A deliverable line is enabled, so the mask is not zero. -/
theorem State.im_ne_zero_of_line {s : State} {n : Line} (h : lowestLine s.deliverable = some n) : s.im ≠ 0 := by
  intro him
  cases (lowestLine_none_of_im_zero him).symm.trans h

theorem State.Inv.takeInterrupt {n : Line} {u t : State} (h : u.Inv) (hfault : u.fault = none)
    (hline : lowestLine u.deliverable = some n) (htake : takeInterrupt n u = .next t) : t.Inv := by
  rcases takeInterrupt_cases htake with ⟨-, -, rfl⟩ | ⟨f, rfl⟩
  · exact h.entered hfault (State.im_ne_zero_of_line hline) n
  · exact h.latch f true

/-- Every step keeps the invariant. -/
theorem State.Inv.step {s t : State} (h : s.Inv) (hstep : step s = .next t) : t.Inv := by
  rcases step_cases hstep with ⟨-, rfl⟩ | ⟨-, f, -, rfl⟩ | ⟨hrunnable, i, u, hfetch, hexec, hcase⟩
  · exact h
  · exact h.latch f false
  · have hu : u.Inv := h.exec (s.runnable_iff.mp hrunnable).2 hfetch hexec
    rcases hcase with ⟨-, rfl⟩ | ⟨-, -, rfl⟩ | ⟨hnone, n, hline, htake⟩
    · exact hu
    · exact hu
    · exact hu.takeInterrupt hnone hline htake

/-- Settles O53: `State.Inv.step`. -/
theorem stepKeepsTheInvariant : Obligations.StepKeepsTheInvariant := fun _ _ h hstep => h.step hstep

/-- Settles O55: the two events. -/
theorem environmentTouchesOnlyPendingAndRun : Obligations.EnvironmentTouchesOnlyPendingAndRun := by
  intro s e
  cases e with
  | raiseLines b =>
    refine ⟨rfl, ?_, nofun⟩
    rintro _ ⟨⟩
    exact ⟨rfl, rfl⟩
  | stop => exact ⟨rfl, nofun, fun _ => ⟨rfl, rfl⟩⟩

/-- The invariant does not speak of `IS`, and a stop only helps it. -/
theorem State.Inv.applyEvent {s : State} (h : s.Inv) (e : EnvEvent) : (applyEvent s e).Inv := by
  cases e with
  | raiseLines b => exact ⟨h.config, h.memory, h.pc, h.fault_stops, h.fault_pc, h.saved_mask, h.mask⟩
  | stop => exact ⟨h.config, h.memory, h.pc, fun _ => rfl, h.fault_pc, h.saved_mask, h.mask⟩

theorem State.Inv.applyEvents {s : State} (h : s.Inv) (es : List EnvEvent) : (applyEvents s es).Inv := by
  induction es generalizing s with
  | nil => exact h
  | cons e rest ih => exact ih (h.applyEvent e)

/-- A driver's run answers a state with the invariant: at its end, at a stop request, or by the steps it goes on
with. -/
theorem State.Inv.driverRun {s : State} (h : s.Inv) (events : List (List EnvEvent)) :
    ∃ t, driverRun s events = .next t ∧ t.Inv := by
  induction events generalizing s with
  | nil => exact ⟨s, rfl, h⟩
  | cons es rest ih =>
    rcases Bool.eq_false_or_eq_true s.run with hs | hs
    · rcases Bool.eq_false_or_eq_true (Machine.applyEvents s es).run with he | he
      · obtain ⟨u, hu⟩ := step_next (Machine.applyEvents s es)
        rw [driverRun_cons_step hs he hu]
        exact ih ((h.applyEvents es).step hu)
      · exact ⟨_, driverRun_cons_stop hs he rest, h.applyEvents es⟩
    · exact ⟨s, driverRun_stopped hs _, h⟩

/-- Settles O54: `State.Inv.applyEvent` and `State.Inv.driverRun`. -/
theorem driverRunKeepsTheInvariant : Obligations.DriverRunKeepsTheInvariant :=
  ⟨fun _ e h => h.applyEvent e, fun _ events h => h.driverRun events⟩

/-- The parameters are constants (R32). -/
theorem step_cfg {s t : State} (h : step s = .next t) : t.cfg = s.cfg := by
  rcases step_cases h with ⟨-, rfl⟩ | ⟨-, f, -, rfl⟩ | ⟨-, i, u, -, hexec, hcase⟩
  · rfl
  · rfl
  · obtain ⟨-, -, -, hcfg, -⟩ := whoWritesTheSpecialRegisters i s u hexec
    rcases hcase with ⟨-, rfl⟩ | ⟨-, -, rfl⟩ | ⟨-, n, -, htake⟩
    · exact hcfg
    · exact hcfg
    · rcases takeInterrupt_cases htake with ⟨-, -, rfl⟩ | ⟨f, rfl⟩
      · rw [State.entered_eq]
        exact hcfg
      · exact hcfg

theorem applyEvent_cfg (s : State) (e : EnvEvent) : (applyEvent s e).cfg = s.cfg := by
  cases e with
  | raiseLines b => rfl
  | stop => rfl

/-- Every reachable state has the invariant and the launch's parameters. -/
theorem Reachable.inv_cfg {c : Config} {image : Memory} {s : State} (hc : c.Legal) (himage : image.wf)
    (h : Reachable c image s) : s.Inv ∧ s.cfg = c := by
  induction h with
  | reset => exact ⟨.resetWith hc himage, rfl⟩
  | step _ hstep ih =>
    obtain ⟨hinv, hcfg⟩ := ih
    exact ⟨hinv.step hstep, (step_cfg hstep).trans hcfg⟩
  | event e _ ih =>
    obtain ⟨hinv, hcfg⟩ := ih
    exact ⟨hinv.applyEvent e, (applyEvent_cfg _ e).trans hcfg⟩

end Sys2Proof.Machine
end

section
/-! SUPPORT. How a run ends, told by `RUN` and `FAULT` at a step boundary; then the statements of R196 and of the
reachable states. -/

namespace Sys2Proof.Machine

/-- The four answers of `State.runEnd`, each with what `RUN` and `FAULT` hold (R196). -/
theorem State.runEnd_cases (s : State) :
    (s.run = true ∧ s.runEnd = none)
      ∨ (s.run = false ∧ s.fault = none ∧ s.runEnd = some .clean)
      ∨ (∃ r, s.run = false ∧ s.fault = some r ∧ r.inEntry = false ∧ s.runEnd = some (.instructionFault r))
      ∨ ∃ r, s.run = false ∧ s.fault = some r ∧ r.inEntry = true ∧ s.runEnd = some (.entryFault r) := by
  cases hrun : s.run with
  | true => exact .inl ⟨rfl, by simp [State.runEnd, hrun]⟩
  | false =>
    refine .inr ?_
    cases hfault : s.fault with
    | none => exact .inl ⟨rfl, rfl, by simp [State.runEnd, hrun, hfault]⟩
    | some r =>
      refine .inr ?_
      cases hentry : r.inEntry with
      | false => exact .inl ⟨r, rfl, rfl, hentry, by simp [State.runEnd, hrun, hfault, hentry]⟩
      | true => exact .inr ⟨r, rfl, rfl, hentry, by simp [State.runEnd, hrun, hfault, hentry]⟩

/-- A run goes on exactly while `RUN` is 1. -/
theorem State.runEnd_eq_none {s : State} : s.runEnd = none ↔ s.run = true := by
  rcases s.runEnd_cases with h | h | ⟨r, h⟩ | ⟨r, h⟩ <;> simp [h]

/-- A run ends cleanly exactly when it ends without a fault. -/
theorem State.runEnd_eq_clean {s : State} : s.runEnd = some .clean ↔ s.run = false ∧ s.fault = none := by
  rcases s.runEnd_cases with h | h | ⟨r, h⟩ | ⟨r, h⟩ <;> simp [h]

theorem State.fault_of_instructionFault {s : State} {r : FaultRecord} (h : s.runEnd = some (.instructionFault r)) :
    s.fault = some r ∧ r.inEntry = false := by
  rcases s.runEnd_cases with ⟨-, e⟩ | ⟨-, -, e⟩ | ⟨q, -, hq, hentry, e⟩ | ⟨q, -, -, -, e⟩ <;> cases e.symm.trans h
  exact ⟨hq, hentry⟩

theorem State.fault_of_entryFault {s : State} {r : FaultRecord} (h : s.runEnd = some (.entryFault r)) :
    s.fault = some r ∧ r.inEntry = true := by
  rcases s.runEnd_cases with ⟨-, e⟩ | ⟨-, -, e⟩ | ⟨q, -, -, -, e⟩ | ⟨q, -, hq, hentry, e⟩ <;> cases e.symm.trans h
  exact ⟨hq, hentry⟩

/-- Settles O56: the invariant of `Reachable.inv_cfg`; a machine with a latched fault is stopped by it, and a
stopped machine does not step. -/
theorem reachableStatesAreSafe : Obligations.ReachableStatesAreSafe := by
  intro c image s hc himage h
  obtain ⟨hinv, hcfg⟩ := h.inv_cfg hc himage
  refine ⟨hinv, hcfg, hcfg ▸ hinv.saved_mask, hcfg ▸ hinv.mask, fun hfault => ⟨?_, ?_⟩⟩
  · rw [Option.isSome_iff_ne_none, ne_eq, State.runEnd_eq_none, hinv.fault_stops hfault]
    exact Bool.false_ne_true
  · exact step_of_not_runnable (State.runnable_false (.inl (hinv.fault_stops hfault)))

/-- HLT is the one instruction that clears `RUN` (R28, R153). -/
theorem Completed.run_false_iff {i : Instr} {s t : State} (h : Completed i s t) (hrun : s.run = true) :
    t.run = false ↔ i = .hlt := by
  have goes_on : s.run ≠ false := by rw [hrun]; exact Bool.false_ne_true.symm
  rcases h.special_cases with ⟨hi, f, p, m, rfl⟩ | ⟨hi, v, p, rfl⟩ | ⟨hi, o, p, rfl⟩ | ⟨hi, b, p, rfl⟩ | ⟨rfl, rfl⟩
    | ⟨rfl, p, rfl⟩
  · exact iff_of_false goes_on hi
  · exact iff_of_false goes_on (by rintro rfl; cases hi)
  · exact iff_of_false goes_on hi
  · exact iff_of_false goes_on (by rintro rfl; cases hi)
  · exact iff_of_false goes_on Instr.noConfusion
  · exact iff_of_true rfl rfl

@[simp] theorem State.entered_run (n : Line) (s : State) : (s.entered n).run = s.run := by
  rw [State.entered_eq]

/-- A step of a running machine that leaves no fault completed its instruction and then entered an interrupt or
did not. -/
theorem step_completed {s t : State} (hrun : s.run = true) (hfault : s.fault = none) (h : step s = .next t)
    (ht : t.fault = none) : ∃ i u, fetch s = .ok i ∧ exec i s = .next u ∧ Completed i s u ∧
      ((lowestLine u.deliverable = none ∧ t = u) ∨ ∃ n, lowestLine u.deliverable = some n ∧ t = u.entered n) := by
  rcases step_cases h with ⟨hstuck, -⟩ | ⟨-, f, -, rfl⟩ | ⟨-, i, u, hfetch, hexec, hcase⟩
  · exact absurd (hstuck.symm.trans (s.runnable_iff.mpr ⟨hrun, hfault⟩)) Bool.false_ne_true
  · cases ht
  · have hu : u.fault = none → Completed i s u := completed_of_fault_none hexec
    rcases hcase with ⟨hsome, rfl⟩ | ⟨hnone, hline, rfl⟩ | ⟨hnone, n, hline, htake⟩
    · rw [ht] at hsome
      cases hsome
    · exact ⟨i, t, hfetch, hexec, hu hnone, .inl ⟨hline, rfl⟩⟩
    · rcases takeInterrupt_cases htake with ⟨-, -, rfl⟩ | ⟨f, rfl⟩
      · exact ⟨i, u, hfetch, hexec, hu hnone, .inr ⟨n, hline, rfl⟩⟩
      · cases ht

/-- A step that leaves no fault stops the machine exactly when it ran HLT. -/
theorem step_run_false_iff {s t : State} (hrun : s.run = true) (hfault : s.fault = none) (h : step s = .next t)
    (ht : t.fault = none) : t.run = false ↔ fetch s = .ok .hlt := by
  obtain ⟨i, u, hfetch, -, hc, hcase⟩ := step_completed hrun hfault h ht
  have hsame : t.run = u.run := by
    rcases hcase with ⟨-, rfl⟩ | ⟨n, -, rfl⟩
    · rfl
    · exact State.entered_run n u
  rw [hsame, hc.run_false_iff hrun, hfetch, Except.ok.injEq]

/-- HLT with nothing deliverable leaves `pc` behind it. -/
theorem step_hlt_pc {s t : State} (hrun : s.run = true) (hfault : s.fault = none) (hfetch : fetch s = .ok .hlt)
    (hpending : s.is &&& s.im = 0) (h : step s = .next t) : t.pc = s.pc + 1 := by
  have hnone : lowestLine (s.is &&& s.im) = none := lowestLine_none_iff_zero.mpr hpending
  have hstep : step s = .next { s with run := false, pc := s.pc + 1 } :=
    (step_of_completed hrun hfault hfetch rfl hfault).trans (interruptCheck_of_none hnone)
  rw [Host.Outcome.next.inj (h.symm.trans hstep)]

/-- A completed instruction followed by a fault had a deliverable line, whose entry faulted. -/
theorem pending_of_entry_fault {s t u : State} {i : Instr} {r : FaultRecord} (hrun : s.run = true)
    (hfault : s.fault = none) (h : step s = .next t) (hr : t.fault = some r) (hfetch : fetch s = .ok i)
    (hexec : exec i s = .next u) (hu : u.fault = none) : u.is &&& u.im ≠ 0 := by
  rw [step_of_completed hrun hfault hfetch hexec hu] at h
  intro hzero
  obtain rfl := Host.Outcome.next.inj
    ((interruptCheck_of_none (lowestLine_none_iff_zero.mpr hzero)).symm.trans h)
  cases hu.symm.trans hr

/-- What any events between two steps do: bits of `IS`, and `RUN` cleared exactly by a stop request (R91). -/
theorem applyEvents_eq (s : State) (es : List EnvEvent) :
    ∃ b, applyEvents s es = { s with is := b, run := s.run && decide (.stop ∉ es) } := by
  induction es generalizing s with
  | nil => exact ⟨s.is, by simp [applyEvents]⟩
  | cons e rest ih =>
    obtain ⟨b, hb⟩ := ih (applyEvent s e)
    refine ⟨b, hb.trans ?_⟩
    cases e with
    | raiseLines v => simp [applyEvent]
    | stop => simp [applyEvent]

/-- Settles O57: in a step `RUN` and `FAULT` tell the ends apart, between steps the stop request. -/
theorem waysARunEnds : Obligations.WaysARunEnds := by
  constructor
  · intro s t hrun hfault hstep
    refine ⟨State.runEnd_eq_none, ?clean, fun hclean hpending => ?cleanPc, fun r hr => ?instruction,
      fun r hr => ?entry⟩
    case clean =>
      rw [State.runEnd_eq_clean]
      exact and_congr_left fun ht => step_run_false_iff hrun hfault hstep ht
    case cleanPc =>
      obtain ⟨hstopped, ht⟩ := State.runEnd_eq_clean.mp hclean
      exact step_hlt_pc hrun hfault ((step_run_false_iff hrun hfault hstep ht).mp hstopped) hpending hstep
    case instruction =>
      obtain ⟨ht, hentry⟩ := State.fault_of_instructionFault hr
      rcases step_fault_record hrun hfault hstep ht with ⟨hs, hpc, -⟩ | ⟨i, u, -, -, -, -, -, hentry'⟩
      · exact ⟨by rw [hs], hpc, hentry⟩
      · exact absurd (hentry.symm.trans hentry') Bool.false_ne_true
    case entry =>
      obtain ⟨ht, hentry⟩ := State.fault_of_entryFault hr
      rcases step_fault_record hrun hfault hstep ht with ⟨-, -, hentry'⟩ | ⟨i, u, hfetch, hexec, hu, hs, hpc, -⟩
      · exact absurd (hentry'.symm.trans hentry) Bool.false_ne_true
      · exact ⟨hentry, i, u, hfetch, hexec, hu, pending_of_entry_fault hrun hfault hstep ht hfetch hexec hu,
          by rw [hs], hpc⟩
  · intro s events hrun hfault
    obtain ⟨b, hb⟩ := applyEvents_eq s events
    rw [hrun, Bool.true_and] at hb
    rw [hb, State.runEnd_eq_clean, State.runEnd_eq_none, hfault]
    refine ⟨?_, decide_eq_true_iff, rfl, rfl⟩
    rw [and_iff_left rfl, decide_eq_false_iff_not, not_not]

end Sys2Proof.Machine
end

section
/-! SUPPORT. A source with a malformed line does not parse; then the statement of R70 and R167. -/

namespace Sys2Proof.Machine

/-- A malformed line spoils the source wherever it stands (R167). -/
theorem parseSource_of_malformed {line : List Char} {e : LoadError} (h : parseLine line = .error e)
    (before after : List (List Char)) : ∃ e', parseSource (before ++ line :: after) = .error e' := by
  induction before with
  | nil => exact ⟨e, by rw [List.nil_append, parseSource, h]⟩
  | cons first rest ih =>
    obtain ⟨e', he'⟩ := ih
    rw [List.cons_append, parseSource, he']
    cases parseLine first with
    | error e => exact ⟨e, rfl⟩
    | ok _ => exact ⟨e', rfl⟩

/-- Settles O58: a launch is the reset state over the written image; a source that does not parse has none. -/
theorem loaderWritesFromAddressZero : Obligations.LoaderWritesFromAddressZero := by
  constructor
  · intro c base source vs hparse hlen
    exact ⟨_, launch_eq_ok_iff.mpr ⟨vs, hparse, hlen, rfl⟩, rfl, Memory.read_writeBytes_zero base vs hlen⟩
  · intro c base before after line e h
    obtain ⟨e', he'⟩ := parseSource_of_malformed h before after
    exact ⟨e', by rw [launch, loadImage, he']; rfl⟩

end Sys2Proof.Machine
end
